-- ==== Sys2Proof/Syntax.lean ====
section
/-! DEFINITION. The command set OMRE1: one constructor per row of spec/opcode_table.json
(30_encoding.md R83), in the table's order. -/

namespace Sys2Proof

/-- An integer register number: a plain unsigned 4-bit field, no number is special (R21, R81). -/
abbrev Reg := Fin 16

/-- The `MODE` field (`redmode`), unsigned 0 to 15 (R81). -/
abbrev RedMode := Fin 16

/-- A command with its operand fields (R83, R84). Fields stand in the order RD, RA, RB, RC, MODE. -/
inductive Instr where
  /-- 0x00 `nop` (R104). -/
  | nop
  /-- 0x01 `mont.setup bD, bN` (R111). -/
  | montSetup (rd ra : Reg)
  /-- 0x02 `mont.norm bD, bB` (R114). -/
  | montNorm (rd ra : Reg)
  /-- 0x03 `mont.reduce bD, bX, bN, bRHO` (R120). -/
  | montReduce (rd ra rb rc : Reg)
  /-- 0x04 `bar.setup bD, bP` (R127). -/
  | barSetup (rd ra : Reg)
  /-- 0x05 `bar.reduce bD, bX, bM, bMU` (R132). -/
  | barReduce (rd ra rb rc : Reg)
  /-- 0x06 `dr.is2k bA` (R136). -/
  | drIs2k (ra : Reg)
  /-- 0x07 `dr.is2k.l bA` (R138). -/
  | drIs2kL (ra : Reg)
  /-- 0x08 `dr.setup bD, bA` (R140). -/
  | drSetup (rd ra : Reg)
  /-- 0x09 `dr.setup.l bD, bP` (R142). -/
  | drSetupL (rd ra : Reg)
  /-- 0x0A `dr.reduce bD, bA, bN, bDD` (R146). -/
  | drReduce (rd ra rb rc : Reg)
  /-- 0x0B `dr.reduce.l bD, bA, bN, bDD` (R147). -/
  | drReduceL (rd ra rb rc : Reg)
  /-- 0x0C `expmod bD, bG, bX, bP, mode` (R160). -/
  | expmod (rd ra rb rc : Reg) (mode : RedMode)
  /-- 0x0D `expmod.fast bD, bG, bX, bP, mode` (R161). -/
  | expmodFast (rd ra rb rc : Reg) (mode : RedMode)
  /-- 0x0E `rm.trials imm` (R171). -/
  | rmTrials (imm : BitVec 32)
deriving DecidableEq, Repr

end Sys2Proof
end

