-- ==== Sys2Proof/WellFormed.lean ====
section
/-! DEFINITION. Which instruction terms have a legal command word (30_encoding.md R85).
Register numbers, `MODE` and `IMM` have exactly the values their fields hold, so the one check left
is the mode of `EXPMOD_FAST`. -/

namespace Sys2Proof

/-- R85: "for `EXPMOD_FAST`, `MODE` is 0, 1 or 2"; `EXPMOD` accepts any `MODE`. -/
def Instr.wellFormed : Instr → Bool
  | .expmodFast _ _ _ _ mode => decide (mode.val ≤ 2)
  | .nop => true
  | .montSetup _ _ => true
  | .montNorm _ _ => true
  | .montReduce _ _ _ _ => true
  | .barSetup _ _ => true
  | .barReduce _ _ _ _ => true
  | .drIs2k _ => true
  | .drIs2kL _ => true
  | .drSetup _ _ => true
  | .drSetupL _ _ => true
  | .drReduce _ _ _ _ => true
  | .drReduceL _ _ _ _ => true
  | .expmod _ _ _ _ _ => true
  | .rmTrials _ => true

end Sys2Proof
end

