-- ==== Sys2Proof/Word.lean ====
section
/-! DEFINITION. The bit-vector types of the bus and of the command word (00_scope.md R10). -/

namespace Sys2Proof

/-- A 64-bit bus word, command word or control register (R10, R24, R80). -/
abbrev Word := BitVec 64

/-- One byte lane of an 8-byte bus access (R54). -/
abbrev Byte := BitVec 8

end Sys2Proof
end

