-- ==== Sys2Proof/Decode.lean ====
section
/-! DEFINITION. Command words: fields, formats, decoder, encoder (30_encoding.md R80 to R92), and the
byte lanes of a 64-bit word (20_memory.md R54). -/

namespace Sys2Proof

/-! ### Byte lanes (R54) -/

/-- Lane `j` carries bits `[8j+7 : 8j]`; lane 0 stands first, at the lowest address (R54). -/
def lanesOfWord (w : Word) : List Byte :=
  (List.range 8).map fun j => w.extractLsb' (8 * j) 8

/-- The number that lanes, lowest address first, stand for (R54). -/
def natOfLanes : List Byte → Nat
  | [] => 0
  | x :: xs => x.toNat + 256 * natOfLanes xs

/-- The word that eight lanes carry (R54). -/
def wordOfLanes (lanes : List Byte) : Word :=
  BitVec.ofNat 64 (natOfLanes lanes)

/-! ### Fields of the command word (R81) -/

/-- `OPC`, `w[7:0]`. -/
def fieldOpc (w : Word) : BitVec 8 := w.extractLsb' 0 8
/-- `RD`, `w[11:8]`. -/
def fieldRd (w : Word) : Reg := (w.extractLsb' 8 4).toFin
/-- `RA`, `w[15:12]`. -/
def fieldRa (w : Word) : Reg := (w.extractLsb' 12 4).toFin
/-- `RB`, `w[19:16]`. -/
def fieldRb (w : Word) : Reg := (w.extractLsb' 16 4).toFin
/-- `RC`, `w[23:20]`. -/
def fieldRc (w : Word) : Reg := (w.extractLsb' 20 4).toFin
/-- `MODE`, `w[27:24]`. -/
def fieldMode (w : Word) : RedMode := (w.extractLsb' 24 4).toFin
/-- The reserved bits `w[31:28]`. -/
def fieldReserved (w : Word) : BitVec 4 := w.extractLsb' 28 4
/-- `IMM`, `w[63:32]`. -/
def fieldImm (w : Word) : BitVec 32 := w.extractLsb' 32 32

/-! ### Formats (R84) and legality (R85) -/

/-- The six formats, named by the fields they use (R84). -/
inductive Format where
  | f0 | fa | fda | fdabc | fdabcm | fi
deriving DecidableEq, Repr

/-- Every field that the format does not use is 0 (R85). -/
def unusedFieldsZero (f : Format) (w : Word) : Bool :=
  let rd := fieldRd w == 0
  let ra := fieldRa w == 0
  let rbc := fieldRb w == 0 && fieldRc w == 0
  let mode := fieldMode w == 0
  let imm := fieldImm w == 0
  match f with
  | .f0 => rd && ra && rbc && mode && imm
  | .fa => rd && rbc && mode && imm
  | .fda => rbc && mode && imm
  | .fdabc => mode && imm
  | .fdabcm => imm
  | .fi => rd && ra && rbc && mode

/-- Why a word is no legal command. Every one of them completes with `ILLEGAL_COMMAND` (R86, R205). -/
inductive DecodeError where
  /-- Fewer than eight bytes: no command can be written in part (R89). -/
  | shortWord
  /-- Opcodes 0x0F to 0xFF (R86). -/
  | reservedOpcode
  /-- `w[31:28]` is not 0 (R85). -/
  | reservedBits
  /-- A field that the format does not use is not 0 (R85). -/
  | unusedField
  /-- `EXPMOD_FAST` with `MODE` 3 to 15 (R85, R87). -/
  | reservedMode
deriving DecidableEq, Repr

/-- The format of an opcode, none for a reserved one (R83). -/
def formatOf (opc : BitVec 8) : Option Format :=
  match opc.toNat with
  | 0x00 => some .f0
  | 0x01 => some .fda
  | 0x02 => some .fda
  | 0x03 => some .fdabc
  | 0x04 => some .fda
  | 0x05 => some .fdabc
  | 0x06 => some .fa
  | 0x07 => some .fa
  | 0x08 => some .fda
  | 0x09 => some .fda
  | 0x0A => some .fdabc
  | 0x0B => some .fdabc
  | 0x0C => some .fdabcm
  | 0x0D => some .fdabcm
  | 0x0E => some .fi
  | _ => none

/-- The command an opcode and the word's fields name (R83), before any legality check. -/
def instrOfFields (w : Word) : Option Instr :=
  match (fieldOpc w).toNat with
  | 0x00 => some .nop
  | 0x01 => some (.montSetup (fieldRd w) (fieldRa w))
  | 0x02 => some (.montNorm (fieldRd w) (fieldRa w))
  | 0x03 => some (.montReduce (fieldRd w) (fieldRa w) (fieldRb w) (fieldRc w))
  | 0x04 => some (.barSetup (fieldRd w) (fieldRa w))
  | 0x05 => some (.barReduce (fieldRd w) (fieldRa w) (fieldRb w) (fieldRc w))
  | 0x06 => some (.drIs2k (fieldRa w))
  | 0x07 => some (.drIs2kL (fieldRa w))
  | 0x08 => some (.drSetup (fieldRd w) (fieldRa w))
  | 0x09 => some (.drSetupL (fieldRd w) (fieldRa w))
  | 0x0A => some (.drReduce (fieldRd w) (fieldRa w) (fieldRb w) (fieldRc w))
  | 0x0B => some (.drReduceL (fieldRd w) (fieldRa w) (fieldRb w) (fieldRc w))
  | 0x0C => some (.expmod (fieldRd w) (fieldRa w) (fieldRb w) (fieldRc w) (fieldMode w))
  | 0x0D => some (.expmodFast (fieldRd w) (fieldRa w) (fieldRb w) (fieldRc w) (fieldMode w))
  | 0x0E => some (.rmTrials (fieldImm w))
  | _ => none

/-- Decoding is a pure function of the 64-bit word (R88): the command of a legal word (R85), or the
reason why the word is illegal. -/
def decodeWord (w : Word) : Except DecodeError Instr :=
  match formatOf (fieldOpc w), instrOfFields w with
  | some f, some i =>
    if fieldReserved w ≠ 0 then .error .reservedBits
    else if unusedFieldsZero f w = false then .error .unusedField
    else if i.wellFormed = false then .error .reservedMode
    else .ok i
  | _, _ => .error .reservedOpcode

/-- The decoder over bytes, lowest address first: one command and the bytes after it (R54, R89). -/
def decodeBytes (bytes : List Byte) : Except DecodeError (Instr × List Byte) :=
  if bytes.length < 8 then .error .shortWord
  else match decodeWord (wordOfLanes (bytes.take 8)) with
    | .ok i => .ok (i, bytes.drop 8)
    | .error e => .error e

/-! ### Encoder (R81) -/

/-- R81: "`OPC | RD<<8 | RA<<12 | RB<<16 | RC<<20 | MODE<<24 | IMM<<32`". -/
def packFields (opc : Nat) (rd ra rb rc : Reg) (mode : RedMode) (imm : BitVec 32) : Word :=
  BitVec.ofNat 64 (imm.toNat <<< 32 ||| (mode.val <<< 24 ||| (rc.val <<< 20 |||
    (rb.val <<< 16 ||| (ra.val <<< 12 ||| (rd.val <<< 8 ||| opc))))))

/-- The command word of an instruction; a field its format does not use is 0 (R81, R84, R85). -/
def encode : Instr → Word
  | .nop => packFields 0x00 0 0 0 0 0 0
  | .montSetup rd ra => packFields 0x01 rd ra 0 0 0 0
  | .montNorm rd ra => packFields 0x02 rd ra 0 0 0 0
  | .montReduce rd ra rb rc => packFields 0x03 rd ra rb rc 0 0
  | .barSetup rd ra => packFields 0x04 rd ra 0 0 0 0
  | .barReduce rd ra rb rc => packFields 0x05 rd ra rb rc 0 0
  | .drIs2k ra => packFields 0x06 0 ra 0 0 0 0
  | .drIs2kL ra => packFields 0x07 0 ra 0 0 0 0
  | .drSetup rd ra => packFields 0x08 rd ra 0 0 0 0
  | .drSetupL rd ra => packFields 0x09 rd ra 0 0 0 0
  | .drReduce rd ra rb rc => packFields 0x0A rd ra rb rc 0 0
  | .drReduceL rd ra rb rc => packFields 0x0B rd ra rb rc 0 0
  | .expmod rd ra rb rc mode => packFields 0x0C rd ra rb rc mode 0
  | .expmodFast rd ra rb rc mode => packFields 0x0D rd ra rb rc mode 0
  | .rmTrials imm => packFields 0x0E 0 0 0 0 0 imm

/-! ### The opcode table's numbering -/

/-- The bytes, lowest address first, of the instruction whose bits are the low `nbits` bits of `w`,
every higher bit 0: bit 0 is the least significant bit of the word (R54, R80). -/
def tableBytes (nbits w : Nat) : List Byte :=
  let v := w % 2 ^ nbits
  (List.range (max 8 ((nbits + 7) / 8))).map fun j => BitVec.ofNat 8 (v / 2 ^ (8 * j))

/-- What the decoder reads from the bytes of `tableBytes nbits w`; none where it refuses. -/
def decodeTableWord (nbits w : Nat) : Option Instr :=
  match decodeBytes (tableBytes nbits w) with
  | .ok (i, _) => some i
  | .error _ => none

/-! ### Disassembler (R90) -/

/-- A register's name, `b0` to `b15` (R90). -/
def regName (r : Reg) : String := "b" ++ toString r.val

/-- Operand names, separated by a comma and a space (R90). -/
def operandList : List String → String
  | [] => ""
  | [x] => x
  | x :: xs => x ++ ", " ++ operandList xs

/-- The assembler text of a command, operands in the order RD, RA, RB, RC, MODE (R90). -/
def Instr.assembly : Instr → String
  | .nop => "nop"
  | .montSetup rd ra => "mont.setup " ++ operandList [regName rd, regName ra]
  | .montNorm rd ra => "mont.norm " ++ operandList [regName rd, regName ra]
  | .montReduce rd ra rb rc => "mont.reduce " ++ operandList [regName rd, regName ra, regName rb, regName rc]
  | .barSetup rd ra => "bar.setup " ++ operandList [regName rd, regName ra]
  | .barReduce rd ra rb rc => "bar.reduce " ++ operandList [regName rd, regName ra, regName rb, regName rc]
  | .drIs2k ra => "dr.is2k " ++ regName ra
  | .drIs2kL ra => "dr.is2k.l " ++ regName ra
  | .drSetup rd ra => "dr.setup " ++ operandList [regName rd, regName ra]
  | .drSetupL rd ra => "dr.setup.l " ++ operandList [regName rd, regName ra]
  | .drReduce rd ra rb rc => "dr.reduce " ++ operandList [regName rd, regName ra, regName rb, regName rc]
  | .drReduceL rd ra rb rc => "dr.reduce.l " ++ operandList [regName rd, regName ra, regName rb, regName rc]
  | .expmod rd ra rb rc mode =>
    "expmod " ++ operandList [regName rd, regName ra, regName rb, regName rc, toString mode.val]
  | .expmodFast rd ra rb rc mode =>
    "expmod.fast " ++ operandList [regName rd, regName ra, regName rb, regName rc, toString mode.val]
  | .rmTrials imm => "rm.trials " ++ toString imm.toInt

/-- Sixteen hexadecimal digits of a word, the most significant first (R90). -/
def hexDigits (w : Word) : String :=
  String.ofList ((List.range 16).map fun k => (Nat.digitChar (w.toNat / 16 ^ (15 - k) % 16)).toUpper)

/-- The text of a word: its command, or "`.word 0x<16 hex digits>`" for an illegal one (R90). -/
def disassemble (w : Word) : String :=
  match decodeWord w with
  | .ok i => i.assembly
  | .error _ => ".word 0x" ++ hexDigits w

end Sys2Proof
end

