-- ==== Sys2Proof/Config.lean ====
section
/-! DEFINITION. The implementation parameters of 00_scope.md R5, as plain data.
Every rule of the model takes them as an argument; Machine/Params.lean says which values are legal (R5, R6). -/

namespace Sys2Proof

/-- One configuration of the hardware (R5; `base` is R50's `BASE`, `irqLine` is R214's `IRQ_LINE`).
`NREG = 16` and `HENSEL_ITERS` are fixed by R5 and are no parameters. -/
structure Config where
  /-- `DIGIT_BITS`, written DB: bits per digit, 28 or 60. -/
  digitBits : Nat
  /-- `WARRAY`: the Comba column limit. -/
  warray : Nat
  /-- `MAX_COMBA`: the Comba path needs fewer modulus digits than this. -/
  maxComba : Nat
  /-- `MAX_WIN_SIZE`: the cap on the window size, 0 for no cap. -/
  maxWinSize : Nat
  /-- `TAB_SIZE`: the number of power-table slots. -/
  tabSize : Nat
  /-- `MAXD`: the digit capacity of every integer register. -/
  maxd : Nat
  /-- `BASE`: the bus address of the register aperture. -/
  base : Nat
  /-- `IRQ_LINE`: the host interrupt line that `irq` drives. -/
  irqLine : Nat
deriving DecidableEq, Repr

/-- The defaults of R5's table. `DIGIT_BITS`, `BASE` and `IRQ_LINE` have no default there:
DESIGN CHOICE 28 (the configuration of 95_test_vectors.md), 0 and 0 (log 1). -/
def Config.standard : Config :=
  { digitBits := 28, warray := 512, maxComba := 256, maxWinSize := 0, tabSize := 256,
    maxd := 1024, base := 0, irqLine := 0 }

end Sys2Proof
end

