-- ==== Sys2Proof/Machine/Params.lean ====
section
/-! DEFINITION. Derived parameters and the legality of a configuration (00_scope.md R5, R6). -/

namespace Sys2Proof

/-- `β = 2^DB`, the digit radix (R5). -/
def Config.beta (c : Config) : Nat := 2 ^ c.digitBits

/-- `MASK = DIGIT_MAX = β - 1` (R5). -/
def Config.mask (c : Config) : Nat := c.beta - 1

/-- `HENSEL_ITERS`: 3 when DB = 28, 5 when DB = 60 (R5). -/
def Config.henselIters (c : Config) : Nat := if c.digitBits = 28 then 3 else 5

/-- `NREG` (R5). -/
def nreg : Nat := 16

/-- The bytes of the register aperture, 256 KiB (R50). -/
def apertureBytes : Nat := 0x40000

/-- `WMAX = 8` when `MAX_WIN_SIZE = 0` or `MAX_WIN_SIZE >= 8`, otherwise `MAX_WIN_SIZE` (R6). -/
def Config.wmax (c : Config) : Nat :=
  if c.maxWinSize = 0 ∨ 8 ≤ c.maxWinSize then 8 else c.maxWinSize

/-- The legal ranges of R5 and the joint constraint of R6. -/
abbrev Config.Legal (c : Config) : Prop :=
  (c.digitBits = 28 ∨ c.digitBits = 60) ∧
  (3 ≤ c.warray ∧ c.warray ≤ 65535) ∧
  (1 ≤ c.maxComba ∧ c.maxComba ≤ 65535) ∧
  c.maxWinSize ≤ 255 ∧
  (2 ≤ c.maxd ∧ c.maxd ≤ 1024) ∧
  c.base % apertureBytes = 0 ∧
  2 ^ c.wmax ≤ c.tabSize

end Sys2Proof
end

