-- ==== Sys2Proof/Machine/Arith.lean ====
section
/-! DEFINITION. Digits, digit counts and bit counts of a natural number (00_scope.md R9), the exact
operations the rules are written in (R8, R12), and repetition. -/

namespace Sys2Proof.Machine

/-- `count_bits(v)`: the least `c >= 0` with `v < 2^c`; 0 for 0 (R9). -/
def countBits (v : Nat) : Nat := if v = 0 then 0 else v.log2 + 1

/-- `used(v)`: the least `u >= 0` with `v < β^u`; 0 for 0 (R9). Computed as `count_bits(v)` in whole
digits, rounded up. -/
def used (c : Config) (v : Nat) : Nat := (countBits v + (c.digitBits - 1)) / c.digitBits

/-- `digit(v, i) = floor(v / β^i) mod β` (R9). -/
def digit (c : Config) (v i : Nat) : Nat := v / c.beta ^ i % c.beta

/-- `v` with digit `i` replaced by `d`: `v - digit(v, i) * β^i + d * β^i` (R61). -/
def setDigit (c : Config) (v i d : Nat) : Nat :=
  v - digit c v i * c.beta ^ i + d * c.beta ^ i

/-- `f` applied `n` times, the loops "repeat `n` times" of the rules. -/
def repeatN {α : Type} (f : α → α) : Nat → α → α
  | 0, x => x
  | n + 1, x => repeatN f n (f x)

end Sys2Proof.Machine
end

