-- ==== Sys2Proof/Machine/State.lean ====
section
/-! DEFINITION. The state of the machine (10_state.md), the outside world as plain data
(20_memory.md R66, 70_reset_and_hazards.md R230, R240), the reasons a step can stop, and reset. -/

namespace Sys2Proof.Machine

/-- The completion codes of `STATUS.ERR` (60_exceptions.md R200). -/
inductive Code where
  /-- 0: the command completed and committed its result. -/
  | ok
  /-- 1: a checked precondition failed (R202). -/
  | invalidArgument
  /-- 2: the result does not fit in `MAXD` digits (R203). -/
  | outOfMemory
  /-- 3: `EXPMOD_FAST` with `MODE = 1` (R204). -/
  | unimplemented
  /-- 4: a division or `mod` by zero (R209). -/
  | divisionByZero
  /-- 5: the command word is not legal (R205). -/
  | illegalCommand
deriving DecidableEq, Repr

/-- `STATUS.PATH`: which Montgomery reduction path the latest completed command used (R33). -/
inductive MontPath where
  /-- 0: no Montgomery reduction, or the command did not complete OK. -/
  | unused
  /-- 1: the Comba fast path. -/
  | comba
  /-- 2: the baseline path. -/
  | baseline
deriving DecidableEq, Repr

/-- The two agents of R20. -/
inductive Agent where
  | host
  | engine
deriving DecidableEq, Repr

/-- One thing that the outside world does to the block: a bus access at a bus address (R50, R51), or
the reset input (R230). -/
inductive BusReq where
  /-- A read of `size` bytes. -/
  | read (addr : Nat) (size : Nat)
  /-- A write of the given byte lanes, lane 0 first (R54); its size is their number. -/
  | write (addr : Nat) (lanes : List Byte)
  /-- The assertion of the reset input (R230). -/
  | resetInput
deriving DecidableEq, Repr

/-- What the bus answers to one access. -/
inductive BusResp where
  /-- A legal read: the eight lanes of the word read (R54, R60). -/
  | data (lanes : List Byte)
  /-- A legal write, performed, ignored or dropped (R61, R64, R206). -/
  | written
  /-- An illegal access: a bus error, with zero data for a read (R51). -/
  | busError (lanes : List Byte)
  /-- An access outside the aperture: not the block's (R50). -/
  | notSelected
deriving DecidableEq, Repr

/-- The machine. The first twelve fields are the block's (10_state.md), the last three are the model's
own: the outside world as data (logs 3 and 4). `USEDr`, `ID`, `PARAM`, `PARAM2`, `irq` and the digit
windows are views of these fields (Flags.lean, Bus.lean). -/
structure State where
  /-- The configuration, constant for one machine (R5, R44); shown by `PARAM` and `PARAM2`. -/
  cfg : Config
  /-- The integer registers `B0` to `B15`, each a natural number (R21). -/
  b : Vector Nat 16
  /-- `CTRL.IE` (R28). -/
  ie : Bool
  /-- `STATUS.BUSY` (R29). -/
  busy : Bool
  /-- `STATUS.DONE` (R30). -/
  done : Bool
  /-- `STATUS.WERR` (R31). -/
  werr : Bool
  /-- `STATUS.ERR` (R32). -/
  err : Code
  /-- `STATUS.PATH` (R33). -/
  path : MontPath
  /-- The read value of `CMD` (R35). -/
  cmd : Word
  /-- `SRES` (R36). -/
  sres : Word
  /-- `SEQ` bits [31:0] (R37). -/
  seq : BitVec 32
  /-- `PEND`: empty, or the accepted command word (R40). Its operand values are the registers' at the
  start of the engine step (R94; log 6). -/
  pend : Option Word
  /-- What the outside world still does, oldest first (R20, R66; log 3). -/
  hostQ : List BusReq
  /-- Who moves at each point where both agents could, the next point first (R66, R240; log 4). -/
  schedule : List Agent
  /-- What the bus answered, newest first (log 3). -/
  responses : List BusResp
deriving DecidableEq, Repr

/-- Machine faults: NONE. The block never traps and nothing stops it: a command's error is its
completion code and a bus error is a bus response (R206, R212; log 15). -/
inductive Fault where
deriving DecidableEq, Repr

/-- Why a step has no meaning. -/
inductive Refusal where
  /-- Raised by exec for an instruction whose meaning is not written yet. Safe. -/
  | notModelled (mnemonic : String)
  /-- Raised by step when `cfg` is outside R5's ranges or breaks R6: "not a configuration of this
  hardware: a model refuses it" (R6). Safe. -/
  | illegalConfiguration
deriving DecidableEq, Repr

/-- The block right after reset in configuration `cfg` (R45, R231), with an outside world that does
nothing (DESIGN CHOICE, logs 3 and 4). -/
def State.resetOf (cfg : Config) : State :=
  { cfg := cfg
    b := Vector.replicate 16 0
    ie := false
    busy := false
    done := false
    werr := false
    err := .ok
    path := .unused
    cmd := 0
    sres := 0
    seq := 0
    pend := none
    hostQ := []
    schedule := []
    responses := [] }

/-- The machine right after reset in the standard configuration (R45; log 1). -/
def State.reset : State := State.resetOf Config.standard

end Sys2Proof.Machine
end

