-- ==== Sys2Proof/Machine/Operands.lean ====
section
/-! DEFINITION. The operand forms of a command: a whole register (R94), digit 0 of a register (R102),
the signed immediate (R82), and the one write form, a whole register (R23). -/

namespace Sys2Proof.Machine

/-- `B[r]`: the whole value of register `r` (R11, R21). -/
def State.reg (s : State) (r : Reg) : Nat := s.b.get r

/-- `B[r] <- v` (R11). -/
def State.setReg (s : State) (r : Reg) (v : Nat) : State :=
  { s with b := s.b.set r.val v r.isLt }

/-- A single-digit operand: `digit(B[r], 0)`, higher digits ignored (R102). -/
def State.regDigit0 (s : State) (r : Reg) : Nat := digit s.cfg (s.reg r) 0

/-- `sext_64(IMM)` as a signed number (R82). -/
def immValue (imm : BitVec 32) : Int := imm.toInt

/-- A signed 64-bit result `s` is stored as `s mod 2^64` (R10, R36). -/
def scalarWord (v : Int) : Word := BitVec.ofInt 64 v

end Sys2Proof.Machine
end

