-- ==== Sys2Proof/Machine/Flags.lean ====
section
/-! DEFINITION. What the control and status registers read as, and the interrupt output (10_state.md
R24 to R39). A bit no rule names reads 0 (R24). -/

namespace Sys2Proof.Machine

/-- The 4-bit number of a completion code (60_exceptions.md R200). -/
def codeNumber : Code → Nat
  | .ok => 0
  | .invalidArgument => 1
  | .outOfMemory => 2
  | .unimplemented => 3
  | .divisionByZero => 4
  | .illegalCommand => 5

/-- The 2-bit number of a path (R33); 3 is never produced. -/
def pathNumber : MontPath → Nat
  | .unused => 0
  | .comba => 1
  | .baseline => 2

/-- `ID`: "ODIN", document revision 7, command set 1 (R25). -/
def idWord : Word := BitVec.ofNat 64 (0x4F44494E + 0x07 * 2 ^ 32 + 0x01 * 2 ^ 40)

/-- `PARAM`: `DIGIT_BITS` [7:0], `MAX_WIN_SIZE` [15:8], `MAXD` [31:16], `MAX_COMBA` [47:32],
`WARRAY` [63:48] (R26). -/
def paramWord (c : Config) : Word :=
  BitVec.ofNat 64 (c.digitBits % 2 ^ 8 + c.maxWinSize % 2 ^ 8 * 2 ^ 8 + c.maxd % 2 ^ 16 * 2 ^ 16 +
    c.maxComba % 2 ^ 16 * 2 ^ 32 + c.warray % 2 ^ 16 * 2 ^ 48)

/-- `PARAM2`: `TAB_SIZE` [15:0] (its low 16 bits, log 12), `NREG` [23:16], `HENSEL_ITERS` [31:24]
(R27). -/
def param2Word (c : Config) : Word :=
  BitVec.ofNat 64 (c.tabSize % 2 ^ 16 + nreg * 2 ^ 16 + c.henselIters * 2 ^ 24)

/-- `CTRL`: `IE` in bit 0; `SRST` and the reserved bits read 0 (R28). -/
def State.ctrlWord (s : State) : Word := BitVec.ofNat 64 s.ie.toNat

/-- `STATUS`: `BUSY` [0], `DONE` [1], `WERR` [2], `ERR` [7:4], `PATH` [9:8] (R29 to R34). -/
def State.statusWord (s : State) : Word :=
  BitVec.ofNat 64 (s.busy.toNat + s.done.toNat * 2 + s.werr.toNat * 4 + codeNumber s.err * 2 ^ 4 +
    pathNumber s.path * 2 ^ 8)

/-- `SEQ`: the count in bits [31:0], 0 above (R37). -/
def State.seqWord (s : State) : Word := s.seq.setWidth 64

/-- `USEDr`: `used(B[r])` in bits [10:0] (R38). -/
def State.usedWord (s : State) (r : Reg) : Word :=
  BitVec.ofNat 64 (used s.cfg (s.reg r) % 2 ^ 11)

/-- `irq = CTRL.IE AND STATUS.DONE`, a level (R39, R214). -/
def State.irq (s : State) : Bool := s.ie && s.done

/-- The level that the block drives on host interrupt line `line` (R214). -/
def State.drivesLine (s : State) (line : Nat) : Bool := s.irq && line == s.cfg.irqLine

end Sys2Proof.Machine
end

