-- ==== Sys2Proof/Machine/Ops.lean ====
section
/-! DEFINITION. The shared operations of the command lifecycle (40_system.md): acceptance, commit,
completion (which takes the place of taking an exception, 60_exceptions.md R212), its acknowledgement
(which takes the place of the return, R215), and reset (70_reset_and_hazards.md R231). -/

namespace Sys2Proof.Machine

/-- The result of a command's rule, before commit (R97). No command writes more than one register, or
both a register and `SRES`. -/
inductive CmdResult where
  /-- No result (`NOP`). -/
  | nothing
  /-- `B[RD] <- v`, if it fits. -/
  | register (rd : Reg) (v : Nat)
  /-- `SRES <- v`. -/
  | scalar (v : Word)
deriving DecidableEq, Repr

/-- Completion, the last action of every engine step (R99): it saves the code and the path, sets
`DONE`, clears `BUSY`, empties `PEND` and counts in `SEQ`. `WERR` is not touched. -/
def State.complete (s : State) (code : Code) (path : MontPath) : State :=
  { s with
    err := code
    path := if code = .ok then path else .unused
    done := true
    busy := false
    pend := none
    seq := s.seq + 1 }

/-- The end of a completion's handling: `DONE` is cleared, which deasserts `irq` (R30, R215). -/
def State.clearDone (s : State) : State := { s with done := false }

/-- `WERR` is cleared (R31). -/
def State.clearWerr (s : State) : State := { s with werr := false }

/-- A host write is dropped because a command is pending: `WERR` is set (R31, R64). -/
def State.dropWrite (s : State) : State := { s with werr := true }

/-- `Need(v)`, as a test: a register result fits in `MAXD` digits (R97). -/
def fits (c : Config) (v : Nat) : Bool := decide (used c v ≤ c.maxd)

/-- Commit and completion of a command whose rule gave `out`: the result and the path, or the code of
`raise Abort` (R97, R98, R100). A register result that does not fit completes with `OUT_OF_MEMORY`. -/
def State.finish (s : State) (out : Except Code (CmdResult × MontPath)) : State :=
  match out with
  | .error code => s.complete code .unused
  | .ok (.nothing, path) => s.complete .ok path
  | .ok (.register rd v, path) =>
    if fits s.cfg v then (s.setReg rd v).complete .ok path else s.complete .outOfMemory .unused
  | .ok (.scalar w, path) => State.complete { s with sres := w } .ok path

/-- The outcome of a command whose rule gave `out`: always a next state (R99). -/
def finishCommand (s : State) (out : Except Code (CmdResult × MontPath)) :
    Host.Outcome State Fault Refusal :=
  .next (s.finish out)

/-- A register result with no Montgomery path, `B[RD] <- v` (R97). -/
def intoReg (rd : Reg) (v : Except Code Nat) : Except Code (CmdResult × MontPath) :=
  v.map fun x => (.register rd x, .unused)

/-- A scalar result, `SRES <- v` (R36, R97). -/
def intoSres (v : Int) : Except Code (CmdResult × MontPath) :=
  .ok (.scalar (scalarWord v), .unused)

/-- `Reset()` (R231): the block's state as R45 gives it. The configuration, and what the outside world
does, are no state of the block and stay. -/
def State.doReset (s : State) : State :=
  { s with
    b := Vector.replicate 16 0
    ie := false
    busy := false
    done := false
    werr := false
    err := .ok
    path := .unused
    cmd := 0
    sres := 0
    seq := 0
    pend := none }

/-- Acceptance of a command word by an idle engine (R95): every word is accepted, legal or not. -/
def State.accept (s : State) (w : Word) : State :=
  { s with pend := some w, cmd := w, busy := true, done := false }

/-- `OfferCommand(w)` (R95). -/
def State.offerCommand (s : State) (w : Word) : State :=
  match s.pend with
  | none => s.accept w
  | some _ => s.dropWrite

end Sys2Proof.Machine
end

