-- ==== Sys2Proof/Machine/Bus.lean ====
section
/-! DEFINITION. The bus interface (20_memory.md): the aperture's map, legal and illegal accesses, host
reads and writes, and one move of the outside world. -/

namespace Sys2Proof.Machine

/-- What a legal offset names (R52, R53). -/
inductive Target where
  | id | param | param2 | ctrl | status | cmd | sres | seq
  /-- `USEDr`. -/
  | used (r : Reg)
  /-- Digit `i` of `B[r]`; `i` may lie at or above `MAXD` (R60, R61). -/
  | digit (r : Reg) (i : Nat)
  /-- Reserved: reads 0, writes ignored. -/
  | reserved
deriving DecidableEq, Repr

/-- The map of R52 and R53, for an offset that is a multiple of 8. -/
def target (off : Nat) : Target :=
  if off = 0x000 then .id
  else if off = 0x008 then .param
  else if off = 0x010 then .param2
  else if off = 0x018 then .ctrl
  else if off = 0x020 then .status
  else if off = 0x028 then .cmd
  else if off = 0x030 then .sres
  else if off = 0x038 then .seq
  else if off < 0x0C0 then .used (Fin.ofNat 16 ((off - 0x040) / 8))
  else if off < 0x1000 then .reserved
  else if off < 0x21000 then
    .digit (Fin.ofNat 16 ((off - 0x1000) / 0x2000)) ((off - 0x1000) % 0x2000 / 8)
  else .reserved

/-- The offset of digit `i` of register `r` (R53, R58). -/
def digitOffset (r : Reg) (i : Nat) : Nat := 0x1000 + 0x2000 * r.val + 8 * i

/-- The current value of what an offset names (R60). -/
def State.readTarget (s : State) : Target → Word
  | .id => idWord
  | .param => paramWord s.cfg
  | .param2 => param2Word s.cfg
  | .ctrl => s.ctrlWord
  | .status => s.statusWord
  | .cmd => s.cmd
  | .sres => s.sres
  | .seq => s.seqWord
  | .used r => s.usedWord r
  | .digit r i => if i < s.cfg.maxd then BitVec.ofNat 64 (digit s.cfg (s.reg r) i) else 0
  | .reserved => 0

/-- `MemRead(BASE + off, 8)`, a legal read (R60). -/
def State.memRead (s : State) (off : Nat) : Word := s.readTarget (target off)

/-- A write of `w` to `CTRL` (R28, R61): with `SRST = 1` the reset takes place and `IE` is discarded. -/
def State.writeCtrl (s : State) (w : Word) : State :=
  if w.getLsbD 1 then s.doReset else { s with ie := w.getLsbD 0 }

/-- A write of `w` to `STATUS`: only the two write-1-to-clear bits act (R30, R31, R34, R61). -/
def State.writeStatus (s : State) (w : Word) : State :=
  let s := if w.getLsbD 1 then s.clearDone else s
  if w.getLsbD 2 then s.clearWerr else s

/-- A write of `w` to digit `i` of `B[r]`: dropped while a command is pending (R64), ignored at or above
`MAXD`, else bits `[DB-1:0]` become the digit (R59, R61). -/
def State.writeDigit (s : State) (r : Reg) (i : Nat) (w : Word) : State :=
  match s.pend with
  | some _ => s.dropWrite
  | none =>
    if i < s.cfg.maxd then s.setReg r (setDigit s.cfg (s.reg r) i (w.toNat % s.cfg.beta)) else s

/-- A write to what an offset names (R61); a write to a read-only register or a reserved offset is
ignored. -/
def State.writeTarget (s : State) (t : Target) (w : Word) : State :=
  match t with
  | .ctrl => s.writeCtrl w
  | .status => s.writeStatus w
  | .cmd => s.offerCommand w
  | .digit r i => s.writeDigit r i w
  | .id => s
  | .param => s
  | .param2 => s
  | .sres => s
  | .seq => s
  | .used _ => s
  | .reserved => s

/-- `MemWrite(BASE + off, 8, w)`, a legal write (R61). -/
def State.memWrite (s : State) (off : Nat) (w : Word) : State := s.writeTarget (target off) w

/-- The bus address lies in the aperture (R50). -/
def inAperture (c : Config) (addr : Nat) : Bool :=
  decide (c.base ≤ addr ∧ addr < c.base + apertureBytes)

/-- A legal access: 8 bytes at an offset that is a multiple of 8 (R51, R55). -/
def legalAccess (off size : Nat) : Bool := size == 8 && off % 8 == 0

/-- The bus answers: the response is recorded (log 3). -/
def State.respond (s : State) (r : BusResp) : State := { s with responses := r :: s.responses }

/-- The zero data that a read's bus error returns, one lane a byte (R51; log 11). -/
def zeroLanes (size : Nat) : List Byte := List.replicate size 0

/-- One read (R50, R51, R60): no state of the block changes (R57). -/
def State.busRead (s : State) (addr size : Nat) : State :=
  if inAperture s.cfg addr = false then s.respond .notSelected
  else if legalAccess (addr - s.cfg.base) size = false then s.respond (.busError (zeroLanes size))
  else s.respond (.data (lanesOfWord (s.memRead (addr - s.cfg.base))))

/-- One write (R50, R51, R61). -/
def State.busWrite (s : State) (addr : Nat) (lanes : List Byte) : State :=
  if inAperture s.cfg addr = false then s.respond .notSelected
  else if legalAccess (addr - s.cfg.base) lanes.length = false then s.respond (.busError [])
  else (s.memWrite (addr - s.cfg.base) (wordOfLanes lanes)).respond .written

/-- One move of the outside world: an access, or the reset input (R20, R230). -/
def State.hostMove (s : State) : BusReq → State
  | .read addr size => s.busRead addr size
  | .write addr lanes => s.busWrite addr lanes
  | .resetInput => s.doReset

end Sys2Proof.Machine
end

