-- ==== Sys2Proof/Machine/Barrett.lean ====
section
/-! DEFINITION. Barrett setup and reduction (42_barrett.md). -/

namespace Sys2Proof.Machine

/-- `BarSetup(P)` (R125). -/
def barSetup (c : Config) (p : Nat) : Except Code Nat :=
  if p = 0 then .error .divisionByZero else .ok (c.beta ^ (2 * used c p) / p)

/-- `MulHigh(q, mu, k)`: the exact product with its digits below `k` cleared (R129). -/
def mulHigh (c : Config) (q mu k : Nat) : Nat := q * mu - q * mu % c.beta ^ k

/-- The quotient estimate after step 4 of R130, with `k = used(m)`. Step 3's first branch is kept as
written although no legal configuration reaches it (R131). -/
def barQuotient (c : Config) (x mu k : Nat) : Nat :=
  let q := x / c.beta ^ (k - 1)
  let q := if k > 2 ^ (c.digitBits - 1) then q * mu else mulHigh c q mu k
  q / c.beta ^ (k + 1)

/-- Steps 5 to 8 of R130: the signed difference of step 7, brought back to `[0, β^(k+1))`. -/
def barRemainder (c : Config) (x m q k : Nat) : Nat :=
  let d : Int := (x % c.beta ^ (k + 1) : Nat) - (q * m % c.beta ^ (k + 1) : Nat)
  (if d < 0 then d + (c.beta ^ (k + 1) : Nat) else d).toNat

/-- `BarReduce(x, m, mu)` (R130). Step 9, "while x >= m: x <- x - m", is the remainder by `m`; the
number of its passes is not observable (R133, R240; log 7). -/
def barReduce (c : Config) (x m mu : Nat) : Except Code Nat :=
  if m = 0 then .error .invalidArgument
  else
    let k := used c m
    .ok (barRemainder c x m (barQuotient c x mu k) k % m)

/-- `BAR_SETUP` (R127). -/
def execBarSetup (rd ra : Reg) (s : State) : Host.Outcome State Fault Refusal :=
  finishCommand s (intoReg rd (barSetup s.cfg (s.reg ra)))

/-- `BAR_REDUCE` (R132). -/
def execBarReduce (rd ra rb rc : Reg) (s : State) : Host.Outcome State Fault Refusal :=
  finishCommand s (intoReg rd (barReduce s.cfg (s.reg ra) (s.reg rb) (s.reg rc)))

end Sys2Proof.Machine
end

