-- ==== Sys2Proof/Machine/DiminishedRadix.lean ====
section
/-! DEFINITION. The 2^k - d classifiers, setups and reducers (43_diminished_radix.md). -/

namespace Sys2Proof.Machine

/-- `IsTwoK(a)` (R135). -/
def isTwoK (c : Config) (a : Nat) : Bool :=
  used c a == 1 ||
    (List.range' c.digitBits (countBits a - c.digitBits)).all fun i => a / 2 ^ i % 2 == 1

/-- `IsTwoKL(a)`: `2 * c >= u`, with `c` the number of digits equal to `MASK` (R137). -/
def isTwoKL (c : Config) (a : Nat) : Bool :=
  decide (used c a ≤ 2 * (List.range (used c a)).countP fun i => digit c a i == c.mask)

/-- `DrSetupL(P) = 2^count_bits(P) - P` (R141). -/
def drSetupL (p : Nat) : Nat := 2 ^ countBits p - p

/-- `DrSetup(a)`: digit 0 of `2^count_bits(a) - a` (R139). -/
def drSetup (c : Config) (a : Nat) : Nat := digit c (2 ^ countBits a - a) 0

/-- Steps 1 to 3 of one pass of R143. -/
def red2kPass (p d : Nat) (single : Bool) (a : Nat) : Nat :=
  let q := a / 2 ^ p
  let q := if single && d == 1 then q else q * d
  a % 2 ^ p + q

/-- The loop of R143, at most `fuel` passes. -/
def red2kLoop (n d : Nat) (single : Bool) : Nat → Nat → Nat
  | 0, a => a
  | fuel + 1, a =>
    let a := red2kPass (countBits n) d single a
    if a < n then a else red2kLoop n d single fuel (a - n)

/-- `Red2k(a, n, d, single)` (R143). Where the spec shows that the loop ends (R144, R157) each pass makes
`a` smaller, so `a + 1` passes are enough (log 8). -/
def red2k (a n d : Nat) (single : Bool) : Nat := red2kLoop n d single (a + 1) a

/-- The termination check of the two reducers, then the reduction (R144, R146, R147). -/
def checkedRed2k (a n d : Nat) (single : Bool) : Except Code Nat :=
  if n = 0 ∨ 2 ^ countBits n ≤ d then .error .invalidArgument else .ok (red2k a n d single)

/-- `DR_IS2K` (R136). -/
def execDrIs2k (ra : Reg) (s : State) : Host.Outcome State Fault Refusal :=
  finishCommand s (intoSres (if isTwoK s.cfg (s.reg ra) then 1 else 0))

/-- `DR_IS2K_L` (R138). -/
def execDrIs2kL (ra : Reg) (s : State) : Host.Outcome State Fault Refusal :=
  finishCommand s (intoSres (if isTwoKL s.cfg (s.reg ra) then 1 else 0))

/-- `DR_SETUP` (R140). -/
def execDrSetup (rd ra : Reg) (s : State) : Host.Outcome State Fault Refusal :=
  finishCommand s (intoReg rd (.ok (drSetup s.cfg (s.reg ra))))

/-- `DR_SETUP_L` (R142). -/
def execDrSetupL (rd ra : Reg) (s : State) : Host.Outcome State Fault Refusal :=
  finishCommand s (intoReg rd (.ok (drSetupL (s.reg ra))))

/-- `DR_REDUCE`: only digit 0 of the `d` register is read (R146). -/
def execDrReduce (rd ra rb rc : Reg) (s : State) : Host.Outcome State Fault Refusal :=
  finishCommand s (intoReg rd (checkedRed2k (s.reg ra) (s.reg rb) (s.regDigit0 rc) true))

/-- `DR_REDUCE_L`: the whole `d` register is read (R147). -/
def execDrReduceL (rd ra rb rc : Reg) (s : State) : Host.Outcome State Fault Refusal :=
  finishCommand s (intoReg rd (checkedRed2k (s.reg ra) (s.reg rb) (s.reg rc) false))

end Sys2Proof.Machine
end

