-- ==== Sys2Proof/Machine/Montgomery.lean ====
section
/-! DEFINITION. Montgomery setup, normalization and reduction (41_montgomery.md). -/

namespace Sys2Proof.Machine

/-- The 4-bit seed of the Hensel lifting, `(((n0 + 2) & 4) << 1) + n0` (R110). -/
def henselSeed (n0 : Nat) : Nat := (((n0 + 2) &&& 4) <<< 1) + n0

/-- One doubling step, `x * (2 - n0 * x)` as an exact integer, then mod `β` into `[0, β)` (R110). -/
def henselStep (c : Config) (n0 x : Nat) : Nat :=
  (((x : Int) * (2 - (n0 : Int) * (x : Int))) % (c.beta : Int)).toNat

/-- `MontSetup(n)` (R110). -/
def montSetup (c : Config) (n : Nat) : Except Code Nat :=
  let n0 := digit c n 0
  if n0 % 2 = 0 then .error .invalidArgument
  else .ok ((c.beta - repeatN (henselStep c n0) c.henselIters (henselSeed n0)) % c.beta)

/-- One doubling with conditional subtraction (R113). -/
def doubleMod (b a : Nat) : Nat := if 2 * a ≥ b then 2 * a - b else 2 * a

/-- `MontNorm(b)`, R113's steps on every `b`. What R115 claims of them for a multi-digit power of two
fails when its top digit is full; the steps win over the claim (head of 90_conflicts.md, C6; log 17). -/
def montNorm (c : Config) (b : Nat) : Nat :=
  if used c b > 1 then
    let bits := countBits b % c.digitBits
    repeatN (doubleMod b) (c.digitBits - bits + 1) (2 ^ ((used c b - 1) * c.digitBits + bits - 1))
  else
    repeatN (doubleMod b) c.digitBits 1

/-- The outer iterations `ix = 0 .. k-1` of R116: iteration `ix` adds `mu * n * β^ix`. -/
def montRounds (c : Config) (n rho : Nat) : Nat → Nat → Nat
  | 0, t => t
  | ix + 1, t =>
    let t := montRounds c n rho ix t
    t + digit c t ix * rho % c.beta * n * c.beta ^ ix

/-- `MontReduce(x, n, rho)` (R116). The Comba path computes this same function (R117). -/
def montReduceValue (c : Config) (x n rho : Nat) : Nat :=
  let k := used c n
  let t := montRounds c n rho k (x % c.beta ^ (2 * k + 1)) / c.beta ^ k
  if t ≥ n then t - n else t

/-- `CombaSelected(x, n)` (R118). -/
def combaSelected (c : Config) (x n : Nat) : Bool :=
  decide (2 * used c n + 1 < c.warray ∧ used c x ≤ c.warray ∧ used c n < c.maxComba)

/-- The path of one `MONT_REDUCE` that completes OK (R119). -/
def montReducePath (c : Config) (x n : Nat) : MontPath :=
  if combaSelected c x n then .comba else .baseline

/-- `MONT_SETUP` (R111). -/
def execMontSetup (rd ra : Reg) (s : State) : Host.Outcome State Fault Refusal :=
  finishCommand s (intoReg rd (montSetup s.cfg (s.reg ra)))

/-- `MONT_NORM` (R114). -/
def execMontNorm (rd ra : Reg) (s : State) : Host.Outcome State Fault Refusal :=
  finishCommand s (intoReg rd (.ok (montNorm s.cfg (s.reg ra))))

/-- `MONT_REDUCE` (R120): an even `n`, 0 included, raises `INVALID_ARGUMENT`. -/
def execMontReduce (rd ra rb rc : Reg) (s : State) : Host.Outcome State Fault Refusal :=
  let x := s.reg ra
  let n := s.reg rb
  finishCommand s
    (if n % 2 = 0 then .error .invalidArgument
     else .ok (.register rd (montReduceValue s.cfg x n (s.regDigit0 rc)), montReducePath s.cfg x n))

end Sys2Proof.Machine
end

