-- ==== Sys2Proof/Machine/Exponentiation.lean ====
section
/-! DEFINITION. The sliding-window exponentiation controller (44_exponentiation.md). -/

namespace Sys2Proof.Machine

/-! ### Window size (R152) -/

/-- The window size before the cap, for `b = count_bits(X)` (R152). -/
def winSizeUncapped (b : Nat) : Nat :=
  if b ≤ 7 then 2
  else if b ≤ 36 then 3
  else if b ≤ 140 then 4
  else if b ≤ 450 then 5
  else if b ≤ 1303 then 6
  else if b ≤ 3529 then 7
  else 8

/-- `WinSize(b)`: `min(MAX_WIN_SIZE, winsize)` if the cap is positive (R152). -/
def winSize (c : Config) (b : Nat) : Nat :=
  if 0 < c.maxWinSize then min c.maxWinSize (winSizeUncapped b) else winSizeUncapped b

/-! ### Power table (R153) -/

/-- `v`, then `n` more slots, each the previous one times `M[1]`, reduced. -/
def powersFrom (red : Nat → Nat) (m1 : Nat) : Nat → Nat → List Nat
  | 0, v => [v]
  | n + 1, v => v :: powersFrom red m1 n (red (v * m1))

/-- One squaring, reduced. -/
def squareRed (red : Nat → Nat) (v : Nat) : Nat := red (v * v)

/-- The populated slots `M[h] .. M[2^w - 1]` with `h = 2^(w-1)`, lowest index first (R153). -/
def powerTable (red : Nat → Nat) (m1 w : Nat) : List Nat :=
  powersFrom red m1 (2 ^ (w - 1) - 1) (repeatN (squareRed red) (w - 1) m1)

/-- `M[j]` for `j` in `[h, 2^w)`, the only indices a closed window has (R154). -/
def tableEntry (table : List Nat) (w j : Nat) : Nat := table.getD (j - 2 ^ (w - 1)) 0

/-! ### Scanner (R154) -/

/-- The scanner's states: 0 leading zeros, 1 squaring only, 2 filling a window (R154). -/
inductive ScanMode where
  | leading | squaring | filling
deriving DecidableEq, Repr

/-- The scanner's variables and `res`, hidden working state of one command (R41, R154). -/
structure Scan where
  mode : ScanMode
  bitbuf : Nat
  bitcpy : Nat
  res : Nat
deriving DecidableEq, Repr

/-- A full window: `w` squarings, one multiplication by `M[bitbuf]`, and an empty window (R155). -/
def closeWindow (red : Nat → Nat) (w : Nat) (table : List Nat) (st : Scan) : Scan :=
  { mode := .squaring, bitbuf := 0, bitcpy := 0,
    res := red (repeatN (squareRed red) w st.res * tableEntry table w st.bitbuf) }

/-- Bit `y` enters the window: `bitcpy` is counted up first (R154). -/
def pushBit (red : Nat → Nat) (w : Nat) (table : List Nat) (st : Scan) (y : Nat) : Scan :=
  let st := { st with mode := .filling, bitcpy := st.bitcpy + 1,
                      bitbuf := st.bitbuf + y * 2 ^ (w - (st.bitcpy + 1)) }
  if st.bitcpy = w then closeWindow red w table st else st

/-- One exponent bit `y` (R154, R155). -/
def scanBit (red : Nat → Nat) (w : Nat) (table : List Nat) (st : Scan) (y : Nat) : Scan :=
  match st.mode with
  | .leading => if y = 0 then st else pushBit red w table st y
  | .squaring => if y = 0 then { st with res := squareRed red st.res } else pushBit red w table st y
  | .filling => pushBit red w table st y

/-- The bits of digit value `v` from bit `n - 1` down to bit 0. -/
def scanDigit (red : Nat → Nat) (w : Nat) (table : List Nat) (v : Nat) : Nat → Scan → Scan
  | 0, st => st
  | n + 1, st => scanDigit red w table v n (scanBit red w table st (v / 2 ^ n % 2))

/-- The digits of `x` from digit `n - 1` down to digit 0, every digit from bit `DB - 1` (R154). -/
def scanDigits (c : Config) (red : Nat → Nat) (w : Nat) (table : List Nat) (x : Nat) :
    Nat → Scan → Scan
  | 0, st => st
  | n + 1, st => scanDigits c red w table x n (scanDigit red w table (digit c x n) c.digitBits st)

/-! ### Tail and skeleton (R155) -/

/-- One residual bit: square, shift the window left by 1, and multiply by `M[1]` if the bit at position
`w` is set. The shifted window is not masked (R155). -/
def tailBit (red : Nat → Nat) (w m1 : Nat) (st : Scan) : Scan :=
  let res := squareRed red st.res
  let bitbuf := 2 * st.bitbuf
  { st with bitbuf := bitbuf, res := if bitbuf / 2 ^ w % 2 = 1 then red (res * m1) else res }

/-- The tail of R155. -/
def scanTail (red : Nat → Nat) (w m1 : Nat) (st : Scan) : Nat :=
  if st.mode = .filling ∧ 0 < st.bitcpy then (repeatN (tailBit red w m1) st.bitcpy st).res else st.res

/-- `ExpCore(M1, X, res, red, w)` (R155). -/
def expCore (c : Config) (m1 x res : Nat) (red : Nat → Nat) (w : Nat) : Nat :=
  scanTail red w m1
    (scanDigits c red w (powerTable red m1 w) x (used c x)
      { mode := .leading, bitbuf := 0, bitcpy := 0, res := res })

/-! ### Bindings (R156, R158) -/

/-- A reduction called inside the controller, where its check cannot fail (R156, R157). -/
def okValue (v : Except Code Nat) : Nat :=
  match v with
  | .ok x => x
  | .error _ => 0

/-- `exponent_mod` (R156, R160): setup first, then `G mod P`, then the skeleton. -/
def expmodValue (c : Config) (g x p : Nat) (mode : RedMode) : Except Code Nat :=
  let w := winSize c (countBits x)
  if mode = 0 then
    match barSetup c p with
    | .error e => .error e
    | .ok mu => .ok (expCore c (g % p) x 1 (fun v => okValue (barReduce c v p mu)) w)
  else if p = 0 then .error .divisionByZero
  else
    let mu := drSetupL p
    .ok (expCore c (g % p) x 1 (fun v => red2k v p mu false) w)

/-- `FastCombaSelected(P)` (R159). -/
def fastCombaSelected (c : Config) (p : Nat) : Bool :=
  decide (2 * used c p + 1 < c.warray ∧ used c p < c.maxComba)

/-- `exponent_mod_fast` with `redmode = 0` (R158, R161): Montgomery form, with the final fixup. -/
def expmodMontgomery (c : Config) (g x p : Nat) : Except Code (Nat × MontPath) :=
  match montSetup c p with
  | .error e => .error e
  | .ok rho =>
    let red := fun v => montReduceValue c v p rho
    let r := montNorm c p
    let w := winSize c (countBits x)
    .ok (red (expCore c (g * r % p) x r red w), if fastCombaSelected c p then .comba else .baseline)

/-- `exponent_mod_fast` with `redmode = 2` (R158, R161): the single-digit 2^k - d reduction. -/
def expmodDiminished (c : Config) (g x p : Nat) : Except Code (Nat × MontPath) :=
  if p = 0 then .error .divisionByZero
  else
    let d := drSetup c p
    .ok (expCore c (g % p) x 1 (fun v => red2k v p d true) (winSize c (countBits x)), .unused)

/-- `exponent_mod_fast` (R161). `MODE = 1` is unimplemented (R169); `MODE` 3 to 15 is no legal command,
so its term completes with `ILLEGAL_COMMAND` here too (R85, R96; log 16). -/
def expmodFastValue (c : Config) (g x p : Nat) (mode : RedMode) : Except Code (Nat × MontPath) :=
  if mode = 1 then .error .unimplemented
  else if mode = 0 then expmodMontgomery c g x p
  else if mode = 2 then expmodDiminished c g x p
  else .error .illegalCommand

/-- `EXPMOD` (R160). -/
def execExpmod (rd ra rb rc : Reg) (mode : RedMode) (s : State) :
    Host.Outcome State Fault Refusal :=
  finishCommand s (intoReg rd (expmodValue s.cfg (s.reg ra) (s.reg rb) (s.reg rc) mode))

/-- `EXPMOD_FAST` (R161); the path is R162's. -/
def execExpmodFast (rd ra rb rc : Reg) (mode : RedMode) (s : State) :
    Host.Outcome State Fault Refusal :=
  finishCommand s
    ((expmodFastValue s.cfg (s.reg ra) (s.reg rb) (s.reg rc) mode).map fun r => (.register rd r.1, r.2))

end Sys2Proof.Machine
end

