-- ==== Sys2Proof/Machine/RabinMiller.lean ====
section
/-! DEFINITION. The Rabin-Miller trial-count mapper (45_rabin_miller.md). -/

namespace Sys2Proof.Machine

/-- `RmTrials(s)`, the table of R170: contiguous rows, each given here by its last size. -/
def rmTrials (s : Int) : Int :=
  if s ≤ 80 then -1
  else if s ≤ 95 then 37
  else if s ≤ 127 then 32
  else if s ≤ 159 then 40
  else if s ≤ 255 then 35
  else if s ≤ 383 then 27
  else if s ≤ 511 then 16
  else if s ≤ 767 then 18
  else if s ≤ 895 then 11
  else if s ≤ 1023 then 10
  else if s ≤ 1535 then 12
  else if s ≤ 2047 then 8
  else if s ≤ 3071 then 6
  else if s ≤ 4095 then 4
  else if s ≤ 5119 then 5
  else if s ≤ 6143 then 4
  else if s ≤ 8191 then 4
  else if s ≤ 10239 then 3
  else 2

/-- `RM_TRIALS` (R171). -/
def execRmTrials (imm : BitVec 32) (s : State) : Host.Outcome State Fault Refusal :=
  finishCommand s (intoSres (rmTrials (immValue imm)))

end Sys2Proof.Machine
end

