-- ==== Sys2Proof/Machine/System.lean ====
section
/-! DEFINITION. `NOP`, the only system command (40_system.md R104, R105). -/

namespace Sys2Proof.Machine

/-- `NOP`: no result, path 0 (R104). -/
def execNop (s : State) : Host.Outcome State Fault Refusal :=
  finishCommand s (.ok (.nothing, .unused))

end Sys2Proof.Machine
end

