-- ==== Sys2Proof/Machine/Dispatch.lean ====
section
/-! DEFINITION. One arm per command (30_encoding.md R83): the command's rule, commit and completion
(40_system.md R100). -/

namespace Sys2Proof.Machine

def exec (i : Instr) (s : State) : Host.Outcome State Fault Refusal :=
  match i with
  | .nop => Sys2Proof.Machine.execNop s
  | .montSetup rd ra => Sys2Proof.Machine.execMontSetup rd ra s
  | .montNorm rd ra => Sys2Proof.Machine.execMontNorm rd ra s
  | .montReduce rd ra rb rc => Sys2Proof.Machine.execMontReduce rd ra rb rc s
  | .barSetup rd ra => Sys2Proof.Machine.execBarSetup rd ra s
  | .barReduce rd ra rb rc => Sys2Proof.Machine.execBarReduce rd ra rb rc s
  | .drIs2k ra => Sys2Proof.Machine.execDrIs2k ra s
  | .drIs2kL ra => Sys2Proof.Machine.execDrIs2kL ra s
  | .drSetup rd ra => Sys2Proof.Machine.execDrSetup rd ra s
  | .drSetupL rd ra => Sys2Proof.Machine.execDrSetupL rd ra s
  | .drReduce rd ra rb rc => Sys2Proof.Machine.execDrReduce rd ra rb rc s
  | .drReduceL rd ra rb rc => Sys2Proof.Machine.execDrReduceL rd ra rb rc s
  | .expmod rd ra rb rc mode => Sys2Proof.Machine.execExpmod rd ra rb rc mode s
  | .expmodFast rd ra rb rc mode => Sys2Proof.Machine.execExpmodFast rd ra rb rc mode s
  | .rmTrials imm => Sys2Proof.Machine.execRmTrials imm s

end Sys2Proof.Machine
end

