-- ==== Sys2Proof/Machine/Engine.lean ====
section
/-! DEFINITION. Whose move it is (20_memory.md R66), the engine step (40_system.md R93, R96, R100), one
move of the machine, and placing a command where the next step runs it. -/

namespace Sys2Proof.Machine

/-- What happens next. -/
inductive Move where
  /-- No agent can move: nothing is pending and the outside world does nothing more. -/
  | idle
  /-- The engine executes the pending word. -/
  | engine (w : Word)
  /-- The outside world performs its next access or event. -/
  | host (req : BusReq)
deriving DecidableEq, Repr

/-- Whose move it is. Where both agents could move, the head of `schedule` says who does, and where the
list is at its end the engine does: "a model may perform the engine step at any point after acceptance,
including immediately" (R240, R66; log 4). -/
def State.nextMove (s : State) : Move :=
  match s.pend, s.hostQ with
  | none, [] => .idle
  | none, req :: _ => .host req
  | some w, [] => .engine w
  | some w, req :: _ => if s.schedule.head? = some .host then .host req else .engine w

/-- The state in which the chosen agent moves: an access that is performed leaves `hostQ`, and a choice
that was made leaves `schedule`. -/
def State.afterChoice (s : State) : State :=
  match s.pend, s.hostQ with
  | none, [] => s
  | none, _ :: rest => { s with hostQ := rest }
  | some _, [] => s
  | some _, _ :: rest =>
    if s.schedule.head? = some .host then { s with hostQ := rest, schedule := s.schedule.tail }
    else { s with schedule := s.schedule.tail }

/-- The engine step: the decode check first, then the command (R93, R96, R100). An illegal word
completes with `ILLEGAL_COMMAND`, having read and written no register (R86). -/
def execWord (w : Word) (s : State) : Host.Outcome State Fault Refusal :=
  match decodeWord w with
  | .ok i => exec i s
  | .error _ => finishCommand s (.error .illegalCommand)

/-- One move of the machine in a legal configuration. With nothing to do the state stays (R222; log 5). -/
def machineMove (s : State) : Host.Outcome State Fault Refusal :=
  match s.nextMove with
  | .idle => .next s
  | .engine w => execWord w s.afterChoice
  | .host req => .next (s.afterChoice.hostMove req)

/-- One step: an illegal configuration is refused (R6), else one move. -/
def legalMove (s : State) : Host.Outcome State Fault Refusal :=
  if s.cfg.Legal then machineMove s else .refused .illegalConfiguration

/-- `s` with word `w` accepted as the pending command (R95), and the engine chosen to move next where
the outside world could move too. -/
def State.placeCommand (s : State) (w : Word) : State :=
  { s.accept w with schedule := if s.hostQ = [] then s.schedule else .engine :: s.schedule }

end Sys2Proof.Machine
end

