-- ==== Sys2Proof/Machine/Step.lean ====
section
/-! DEFINITION. The step of the machine (20_memory.md R66), and the placing of an instruction. -/

namespace Sys2Proof.Machine

/-- One step of the one total order: a host access, a reset event, or a whole command (R66). -/
def step (s : State) : Host.Outcome State Fault Refusal := legalMove s

/-- `s` with the instruction whose bits are the low `nbits` bits of `w` pending, so that the very next
step executes it. The engine fetches nothing: what it executes is the pending command (R42; log 9). -/
def State.withFetchWord (s : State) (nbits w : Nat) : State :=
  s.placeCommand (wordOfLanes ((tableBytes nbits w).take 8))

end Sys2Proof.Machine
end

