-- ==== Sys2Proof/Safety.lean ====
section
/-! DEFINITION. What counts as a safe run, in the terms the statements use: the state invariant, and the
host's side of the busy hazard (70_reset_and_hazards.md R235). -/

namespace Sys2Proof.Machine

/-- Every register holds a value below `β^MAXD` (R21). -/
def State.RegsBounded (s : State) : Prop := ∀ r : Reg, s.reg r < s.cfg.beta ^ s.cfg.maxd

/-- What every step keeps: a legal configuration (R5, R6), registers in range (R21), `PEND` non-empty
exactly while `BUSY = 1` (R40), `DONE = 0` and `CMD` reading the pending word while a command is pending
(R30, R35, R95), and a path only after an OK completion (R33). -/
structure State.Inv (s : State) : Prop where
  legal : s.cfg.Legal
  regs : s.RegsBounded
  busy_pend : s.busy = s.pend.isSome
  pend_done : s.pend.isSome → s.done = false
  pend_cmd : ∀ w, s.pend = some w → s.cmd = w
  path_ok : s.path ≠ .unused → s.err = .ok

/-- The offset of a legal write, none for anything else (R50, R51). -/
def legalWriteOffset (c : Config) : BusReq → Option Nat
  | .write addr lanes =>
    if inAperture c addr && legalAccess (addr - c.base) lanes.length then some (addr - c.base) else none
  | .read _ _ => none
  | .resetInput => none

/-- The request is a legal write to a digit window or to `CMD`: the writes that the busy hazard drops
(R64). -/
def isHazardWrite (c : Config) (req : BusReq) : Bool :=
  match legalWriteOffset c req with
  | none => false
  | some off =>
    match target off with
    | .cmd => true
    | .digit _ _ => true
    | _ => false

/-- The request resets the block: the reset input, or a legal write to `CTRL` with `SRST` set (R230). -/
def isResetReq (c : Config) (req : BusReq) : Bool :=
  match req with
  | .resetInput => true
  | .read _ _ => false
  | .write _ lanes =>
    match legalWriteOffset c req with
    | none => false
    | some off => target off == .ctrl && (wordOfLanes lanes).getLsbD 1

/-- The next move is not a write that the busy hazard drops: what R235 asks of software. -/
def State.HazardFree (s : State) : Prop :=
  ∀ req, s.nextMove = .host req → s.pend.isSome → isHazardWrite s.cfg req = false

/-- The state of an outcome that is a next state. -/
def nextState? : Host.Outcome State Fault Refusal → Option State
  | .next s => some s
  | .fault _ => none
  | .refused _ => none

end Sys2Proof.Machine
end

