-- ==== Sys2Proof/Certificates/Slice0/Obligations.lean ====
section
/-! DEFINITION. The statements about the model, one `def Obligations.<Name> : Prop` each, and the small
vocabulary they are written in (namespace `Sys2Proof.Claims`), which is transcribed from the rules and
calls no meaning of the machine. -/

namespace Sys2Proof.Claims

open Sys2Proof.Machine

/-! ### End states, written out from 40_system.md R99 -/

/-- Completion with `code` and `path` and no result (R99). -/
def completed (s : State) (code : Code) (path : MontPath) : State :=
  { s with err := code, path := path, done := true, busy := false, pend := none, seq := s.seq + 1 }

/-- An error completion: `PATH = 0`, nothing else written (R98, R201). -/
def failed (s : State) (code : Code) : State := completed s code .unused

/-- An OK completion with `B[rd] <- v` (R97). -/
def okReg (s : State) (rd : Reg) (v : Nat) (path : MontPath) : State :=
  { completed s .ok path with b := s.b.set rd.val v rd.isLt }

/-- An OK completion with `SRES <- v` (R36, R97). -/
def okScalar (s : State) (v : Word) : State := { completed s .ok .unused with sres := v }

/-- The block after `Reset()`, written out from 70_reset_and_hazards.md R231. -/
def afterReset (s : State) : State :=
  { s with b := Vector.replicate 16 0, ie := false, busy := false, done := false, werr := false,
           err := .ok, path := .unused, cmd := 0, sres := 0, seq := 0, pend := none }

/-! ### The operands and results of the commands (30_encoding.md R83) -/

/-- The destination register. -/
def destReg : Instr → Option Reg
  | .montSetup rd _ => some rd
  | .montNorm rd _ => some rd
  | .montReduce rd _ _ _ => some rd
  | .barSetup rd _ => some rd
  | .barReduce rd _ _ _ => some rd
  | .drSetup rd _ => some rd
  | .drSetupL rd _ => some rd
  | .drReduce rd _ _ _ => some rd
  | .drReduceL rd _ _ _ => some rd
  | .expmod rd _ _ _ _ => some rd
  | .expmodFast rd _ _ _ _ => some rd
  | .nop => none
  | .drIs2k _ => none
  | .drIs2kL _ => none
  | .rmTrials _ => none

/-- The commands whose result is `SRES` (R36). -/
def writesSres : Instr → Bool
  | .drIs2k _ => true
  | .drIs2kL _ => true
  | .rmTrials _ => true
  | _ => false

/-- The source registers. -/
def sourceRegs : Instr → List Reg
  | .nop => []
  | .rmTrials _ => []
  | .montSetup _ ra => [ra]
  | .montNorm _ ra => [ra]
  | .barSetup _ ra => [ra]
  | .drIs2k ra => [ra]
  | .drIs2kL ra => [ra]
  | .drSetup _ ra => [ra]
  | .drSetupL _ ra => [ra]
  | .montReduce _ ra rb rc => [ra, rb, rc]
  | .barReduce _ ra rb rc => [ra, rb, rc]
  | .drReduce _ ra rb rc => [ra, rb, rc]
  | .drReduceL _ ra rb rc => [ra, rb, rc]
  | .expmod _ ra rb rc _ => [ra, rb, rc]
  | .expmodFast _ ra rb rc _ => [ra, rb, rc]

/-- The codes a legal command can complete with (60_exceptions.md R207). -/
def possibleCodes : Instr → List Code
  | .nop => [.ok]
  | .montSetup _ _ => [.ok, .invalidArgument]
  | .montNorm _ _ => [.ok]
  | .montReduce _ _ _ _ => [.ok, .invalidArgument, .outOfMemory]
  | .barSetup _ _ => [.ok, .divisionByZero, .outOfMemory]
  | .barReduce _ _ _ _ => [.ok, .invalidArgument]
  | .drIs2k _ => [.ok]
  | .drIs2kL _ => [.ok]
  | .drSetup _ _ => [.ok]
  | .drSetupL _ _ => [.ok]
  | .drReduce _ _ _ _ => [.ok, .invalidArgument]
  | .drReduceL _ _ _ _ => [.ok, .invalidArgument]
  | .expmod _ _ _ _ _ => [.ok, .divisionByZero]
  | .expmodFast _ _ _ _ mode =>
    if mode = 1 then [.unimplemented]
    else if mode = 0 then [.ok, .invalidArgument]
    else [.ok, .divisionByZero]
  | .rmTrials _ => [.ok]

/-- The offsets whose value a completion of `i` may change: `STATUS`, `SEQ`, and the result's own
(R97, R99, 20_memory.md R52, R53). -/
def mayChange (i : Instr) : Target → Bool
  | .status => true
  | .seq => true
  | .sres => writesSres i
  | .used r => decide (destReg i = some r)
  | .digit r _ => decide (destReg i = some r)
  | _ => false

/-! ### Requests of the outside world -/

/-- The requests that `legalWriteOffset` and the map call a legal write to `t`. -/
def writesTo (c : Config) (t : Target) (req : BusReq) : Bool :=
  match legalWriteOffset c req with
  | none => false
  | some off => target off == t

/-- Bit `j` of the word that a write carries; false for anything else. -/
def dataBit (j : Nat) : BusReq → Bool
  | .write _ lanes => (wordOfLanes lanes).getLsbD j
  | .read _ _ => false
  | .resetInput => false

/-- The word that a write carries; 0 for anything else. -/
def dataWord : BusReq → Word
  | .write _ lanes => wordOfLanes lanes
  | .read _ _ => 0
  | .resetInput => 0

/-! ### Loops, as relations -/

/-- The loop of 43_diminished_radix.md R143 from `a` ends with `v`. -/
inductive RedLoop (n d : Nat) (single : Bool) : Nat → Nat → Prop where
  /-- Step 4 returns. -/
  | done (a q : Nat) (hq : q = if single = true ∧ d = 1 then a / 2 ^ countBits n else a / 2 ^ countBits n * d)
      (h : a % 2 ^ countBits n + q < n) : RedLoop n d single a (a % 2 ^ countBits n + q)
  /-- Another pass. -/
  | again (a q v : Nat) (hq : q = if single = true ∧ d = 1 then a / 2 ^ countBits n else a / 2 ^ countBits n * d)
      (h : n ≤ a % 2 ^ countBits n + q) (rest : RedLoop n d single (a % 2 ^ countBits n + q - n) v) :
      RedLoop n d single a v

/-- Step 9 of 42_barrett.md R130, "while x >= m: x <- x - m": from `x` it ends with `v` after `k`
passes. -/
inductive SubLoop (m : Nat) : Nat → Nat → Nat → Prop where
  | done (x : Nat) (h : x < m) : SubLoop m 0 x x
  | again (k x v : Nat) (h : m ≤ x) (rest : SubLoop m k (x - m) v) : SubLoop m (k + 1) x v

/-! ### Tables, transcribed -/

/-- `(match, mask)` of the fifteen commands: the opcode, and every bit that R84 and R85 fix for its format
(30_encoding.md R83 to R85). The rows are those of opcode_table.json, but for the five of format FDA, whose
masks there leave `RB` free against R85 (log 21). -/
def opcodeRows : List (Word × Word) :=
  [ (0x0, 0xFFFFFFFFFFFFFFFF), (0x1, 0xFFFFFFFFFFFF00FF), (0x2, 0xFFFFFFFFFFFF00FF),
    (0x3, 0xFFFFFFFFFF0000FF), (0x4, 0xFFFFFFFFFFFF00FF), (0x5, 0xFFFFFFFFFF0000FF),
    (0x6, 0xFFFFFFFFFFFF0FFF), (0x7, 0xFFFFFFFFFFFF0FFF), (0x8, 0xFFFFFFFFFFFF00FF),
    (0x9, 0xFFFFFFFFFFFF00FF), (0xA, 0xFFFFFFFFFF0000FF), (0xB, 0xFFFFFFFFFF0000FF),
    (0xC, 0xFFFFFFFFF00000FF), (0xD, 0xFFFFFFFFF00000FF), (0xE, 0x00000000FFFFFFFF) ]

/-- `(first size, last size, count)` of the closed rows of 45_rabin_miller.md R170. -/
def trialRows : List (Int × Int × Int) :=
  [ (81, 95, 37), (96, 127, 32), (128, 159, 40), (160, 255, 35), (256, 383, 27), (384, 511, 16),
    (512, 767, 18), (768, 895, 11), (896, 1023, 10), (1024, 1535, 12), (1536, 2047, 8),
    (2048, 3071, 6), (3072, 4095, 4), (4096, 5119, 5), (5120, 6143, 4), (6144, 8191, 4),
    (8192, 10239, 3) ]

/-- `(first, last, window)` of the closed rows of 44_exponentiation.md R152. -/
def windowRows : List (Nat × Nat × Nat) :=
  [ (0, 7, 2), (8, 36, 3), (37, 140, 4), (141, 450, 5), (451, 1303, 6), (1304, 3529, 7) ]

/-- The word of R81 with `MODE = 0` and `IMM = 0`: `opc | RD<<8 | RA<<12 | RB<<16 | RC<<20`. -/
def wordOf (opc : Nat) (rd ra rb rc : Reg) : Word :=
  BitVec.ofNat 64 (opc ||| rd.val <<< 8 ||| ra.val <<< 12 ||| rb.val <<< 16 ||| rc.val <<< 20)

/-- What an exponentiation gives for `P >= 1` (44_exponentiation.md R163, R164): `G^X mod P`, but 1 for
`P = 1`, `X = 0` where `res = 1` is never reduced. -/
def powResult (g x p : Nat) : Nat := if p = 1 ∧ x = 0 then 1 else g ^ x % p

end Sys2Proof.Claims

open Sys2Proof Sys2Proof.Machine Sys2Proof.Claims

/-! ## Encoding (30_encoding.md) -/

/-- Decoding the encoding of a well-formed command gives it back, every operand at every value. -/
def Obligations.DecodeOfEncode : Prop :=
  ∀ i : Instr, i.wellFormed = true → decodeWord (encode i) = .ok i

/-- R88: a word that decodes is the encoding of its command, the command is well formed, and two
different legal words are different commands. -/
def Obligations.LegalWordsHaveNoAliases : Prop :=
  (∀ (w : Word) (i : Instr), decodeWord w = .ok i → i.wellFormed = true ∧ encode i = w) ∧
  (∀ (w w' : Word) (i i' : Instr), decodeWord w = .ok i → decodeWord w' = .ok i' → w ≠ w' → i ≠ i')

/-- R85: a word is legal exactly when its opcode is one of 0x00 to 0x0E, its reserved bits and every field
that the opcode's format does not use are 0, and, for `EXPMOD_FAST`, `MODE` is 0, 1 or 2. -/
def Obligations.LegalWordsFitTheirFormat : Prop :=
  ∀ w : Word, (∃ i, decodeWord w = .ok i) ↔
    ∃ row ∈ opcodeRows, w &&& row.2 = row.1 ∧ (row.1 = 0xD → (w.extractLsb' 24 4).toNat ≤ 2)

/-- R92: the worked encodings, read and written. -/
def Obligations.WorkedEncodingsDecode : Prop :=
  decodeWord 0x0000000000000101 = .ok (.montSetup 1 0) ∧
  decodeWord 0x0000000000102303 = .ok (.montReduce 3 2 0 1) ∧
  decodeWord 0x000000000032150C = .ok (.expmod 5 1 2 3 0) ∧
  decodeWord 0x000000000232150D = .ok (.expmodFast 5 1 2 3 2) ∧
  decodeWord 0x000000510000000E = .ok (.rmTrials 81) ∧
  decodeWord 0xFFFFFFFF0000000E = .ok (.rmTrials (BitVec.ofInt 32 (-1))) ∧
  decodeWord 0x0000000000007006 = .ok (.drIs2k 7) ∧
  encode (.montSetup 1 0) = 0x0000000000000101 ∧
  encode (.montReduce 3 2 0 1) = 0x0000000000102303 ∧
  encode (.expmod 5 1 2 3 0) = 0x000000000032150C ∧
  encode (.expmodFast 5 1 2 3 2) = 0x000000000232150D ∧
  encode (.rmTrials 81) = 0x000000510000000E ∧
  encode (.rmTrials (BitVec.ofInt 32 (-1))) = 0xFFFFFFFF0000000E ∧
  encode (.drIs2k 7) = 0x0000000000007006

/-- R54, R89: lane `j` of the eight lanes carries bits `[8j+7 : 8j]`, the lanes give the word back, and
the byte decoder reads one command from the lanes of its word and leaves the bytes after it. -/
def Obligations.ByteLanesCarryTheWord : Prop :=
  ∀ (w : Word) (rest : List Byte),
    (∀ j, j < 8 → (lanesOfWord w)[j]? = some (w.extractLsb' (8 * j) 8)) ∧
    wordOfLanes (lanesOfWord w) = w ∧
    decodeBytes (lanesOfWord w ++ rest) = (decodeWord w).map fun i => (i, rest)

/-! ## The step (20_memory.md R66, 40_system.md R93 to R100) -/

/-- A step in which the engine moves is `exec` of the decoded pending word; around it, only a choice
between the agents that had to be made leaves `schedule`. Who moves, that an exhausted `schedule` lets the
engine move, and that a used entry leaves it are the model's choice (log 4). -/
def Obligations.StepRunsThePendingCommand : Prop :=
  ∀ (s : State) (w : Word) (i : Instr), s.cfg.Legal → s.pend = some w → decodeWord w = .ok i →
    (s.hostQ = [] ∨ s.schedule.head? ≠ some .host) →
    step s = exec i (if s.hostQ = [] then s else { s with schedule := s.schedule.tail })

/-- R96, R99: an illegal pending word completes with `ILLEGAL_COMMAND` and `PATH = 0`, no register and no
`SRES` read or written. That an exhausted `schedule` lets the engine move, and that a used entry leaves
it, are the model's choice (log 4). -/
def Obligations.IllegalWordCompletesWithIllegalCommand : Prop :=
  ∀ (s : State) (w : Word) (e : DecodeError), s.cfg.Legal → s.pend = some w → decodeWord w = .error e →
    (s.hostQ = [] ∨ s.schedule.head? ≠ some .host) →
    step s = .next (failed (if s.hostQ = [] then s else { s with schedule := s.schedule.tail })
      .illegalCommand)

/-- A step in which the outside world moves performs its oldest request; a choice that had to be made
leaves `schedule`. The requests as a list and the choice as data are the model's (logs 3 and 4). -/
def Obligations.StepPerformsTheOldestRequest : Prop :=
  ∀ (s : State) (req : BusReq) (rest : List BusReq), s.cfg.Legal → s.hostQ = req :: rest →
    (s.pend = none ∨ s.schedule.head? = some .host) →
    step s = .next (State.hostMove { s with
      hostQ := rest, schedule := if s.pend = none then s.schedule else s.schedule.tail } req)

/-- R6: a configuration outside R5's ranges, or with `TAB_SIZE < 2^WMAX`, is refused, and no other is. -/
def Obligations.ExactlyIllegalConfigurationsAreRefused : Prop :=
  ∀ s : State,
    step s = .refused .illegalConfiguration ↔
      ¬ ((s.cfg.digitBits = 28 ∨ s.cfg.digitBits = 60) ∧
        (3 ≤ s.cfg.warray ∧ s.cfg.warray ≤ 65535) ∧ (1 ≤ s.cfg.maxComba ∧ s.cfg.maxComba ≤ 65535) ∧
        s.cfg.maxWinSize ≤ 255 ∧ (2 ≤ s.cfg.maxd ∧ s.cfg.maxd ≤ 1024) ∧ 2 ^ 18 ∣ s.cfg.base ∧
        2 ^ (if s.cfg.maxWinSize = 0 ∨ 8 ≤ s.cfg.maxWinSize then 8 else s.cfg.maxWinSize)
          ≤ s.cfg.tabSize)

/-- In a legal configuration every step answers a next state, with the same configuration: nothing the
host does and no command, legal or not, stops the machine. -/
def Obligations.EveryStepGoesOn : Prop :=
  ∀ s : State, s.cfg.Legal → ∃ t, step s = .next t ∧ t.cfg = s.cfg

/-! ## The invariant -/

/-- R45: the invariant holds right after reset, in every legal configuration and in the standard one. -/
def Obligations.ResetMeetsTheInvariant : Prop :=
  (∀ c : Config, c.Legal → (State.resetOf c).Inv) ∧ State.reset.Inv

/-- Every step keeps the invariant: registers below `β^MAXD`, `PEND` non-empty exactly while `BUSY`,
`DONE = 0` and `CMD` showing the word while a command is pending, a path only after OK. -/
def Obligations.EveryStepKeepsTheInvariant : Prop :=
  ∀ s t : State, s.Inv → step s = .next t → t.Inv

/-- R67: in a state that meets the invariant, a `STATUS` read with `BUSY = 0` is made exactly when no
command is pending, and one with `DONE = 1` only then. -/
def Obligations.StatusReadTellsCompletion : Prop :=
  ∀ s : State, s.Inv →
    ((s.memRead 0x020).getLsbD 0 = false ↔ s.pend = none) ∧
    ((s.memRead 0x020).getLsbD 1 = true → s.pend = none)

/-! ## Reset (70_reset_and_hazards.md) -/

/-- R230, R231: the reset input and a `CTRL` write with `SRST` set perform `Reset()` and nothing else,
whether a command is pending or not. Who moves and that a used entry leaves `schedule` (log 4), the record
of the answer (log 3), and that a reset leaves the configuration and the outside world's lists (log 18)
are the model's. -/
def Obligations.BothResetEventsPerformReset : Prop :=
  ∀ (s : State) (rest : List BusReq), s.cfg.Legal → (s.pend = none ∨ s.schedule.head? = some .host) →
    let sched := if s.pend = none then s.schedule else s.schedule.tail
    (s.hostQ = .resetInput :: rest →
      step s = .next (afterReset { s with hostQ := rest, schedule := sched })) ∧
    (∀ w : Word, w.getLsbD 1 = true →
      s.hostQ = .write (s.cfg.base + 0x018) (lanesOfWord w) :: rest →
      step s = .next (afterReset { s with
        hostQ := rest, schedule := sched, responses := .written :: s.responses }))

/-- R45: after reset every legal offset but those of `ID`, `PARAM` and `PARAM2` reads 0, nothing is
pending and `irq` is deasserted. -/
def Obligations.AfterResetEverythingReadsZero : Prop :=
  ∀ (s : State) (off : Nat), off % 8 = 0 → off < 0x40000 → off ≠ 0x000 → off ≠ 0x008 → off ≠ 0x010 →
    s.doReset.memRead off = 0 ∧ s.doReset.pend = none ∧ s.doReset.irq = false

/-! ## Registers on the bus (10_state.md, 20_memory.md) -/

/-- R60: what a legal read returns, for every offset of the aperture; the access answers with the lanes of
that value (R54) and changes nothing of the block (R57). The record of the answer, in front of `responses`,
is the model's choice (log 3). -/
def Obligations.LegalReadReturnsTheCurrentValue : Prop :=
  ∀ s : State,
    s.memRead 0x000 = idWord ∧ s.memRead 0x008 = paramWord s.cfg ∧ s.memRead 0x010 = param2Word s.cfg ∧
    s.memRead 0x018 = s.ctrlWord ∧ s.memRead 0x020 = s.statusWord ∧ s.memRead 0x028 = s.cmd ∧
    s.memRead 0x030 = s.sres ∧ s.memRead 0x038 = s.seq.setWidth 64 ∧
    (∀ r : Reg, s.memRead (0x040 + 8 * r.val) = s.usedWord r) ∧
    (∀ (r : Reg) (i : Nat), i < 1024 → s.memRead (0x1000 + 0x2000 * r.val + 8 * i) =
      if i < s.cfg.maxd then BitVec.ofNat 64 (s.reg r / s.cfg.beta ^ i % s.cfg.beta) else 0) ∧
    (∀ off, (0x0C0 ≤ off ∧ off < 0x1000) ∨ 0x21000 ≤ off → s.memRead off = 0) ∧
    (∀ off, off < 0x40000 → off % 8 = 0 → s.hostMove (.read (s.cfg.base + off) 8) =
      { s with responses := .data (lanesOfWord (s.memRead off)) :: s.responses })

/-- R50, R51: an illegal access gets a bus error with zero data and changes nothing of the block; an
access outside the aperture is not the block's and changes nothing of it. The record of the answer (log 3),
the answer `notSelected` (log 10) and how many zero lanes a bus error carries (log 11) are the model's
choice. -/
def Obligations.IllegalAccessIsABusError : Prop :=
  ∀ s : State,
    (∀ off : Nat, off < 0x40000 →
      (∀ size : Nat, size ≠ 8 ∨ off % 8 ≠ 0 →
        s.hostMove (.read (s.cfg.base + off) size) =
          { s with responses := .busError (List.replicate size 0) :: s.responses }) ∧
      (∀ lanes : List Byte, lanes.length ≠ 8 ∨ off % 8 ≠ 0 →
        s.hostMove (.write (s.cfg.base + off) lanes) =
          { s with responses := .busError [] :: s.responses })) ∧
    (∀ addr : Nat, addr < s.cfg.base ∨ s.cfg.base + 0x40000 ≤ addr →
      (∀ size : Nat, s.hostMove (.read addr size) =
        { s with responses := .notSelected :: s.responses }) ∧
      (∀ lanes : List Byte, s.hostMove (.write addr lanes) =
        { s with responses := .notSelected :: s.responses }))

/-- R54, R59, R61: a legal write request, busy or not, performs `MemWrite` of the word its lanes carry and
is answered (the record of the answer is log 3's); a write to a read-only register or a reserved offset is
ignored, busy or not (R24, R52, R53). An idle write of `w` to digit `i` of `B[r]` stores `w[DB-1:0]` there:
every other digit, every other register and every other field stay; at or above `MAXD` it has no effect. -/
def Obligations.DigitWriteStoresOneDigit : Prop :=
  ∀ (s : State) (w : Word), s.cfg.Legal →
    (∀ off, off < 0x40000 → off % 8 = 0 →
      s.hostMove (.write (s.cfg.base + off) (lanesOfWord w)) =
        { s.memWrite off w with responses := .written :: s.responses }) ∧
    (∀ off, off % 8 = 0 → off ≠ 0x018 → off ≠ 0x020 → off ≠ 0x028 → (off < 0x1000 ∨ 0x21000 ≤ off) →
      s.memWrite off w = s) ∧
    (∀ (r : Reg) (i : Nat), s.pend = none → i < 1024 →
      (s.cfg.maxd ≤ i → s.memWrite (0x1000 + 0x2000 * r.val + 8 * i) w = s) ∧
      (i < s.cfg.maxd → ∃ v,
        s.memWrite (0x1000 + 0x2000 * r.val + 8 * i) w = { s with b := s.b.set r.val v r.isLt } ∧
        digit s.cfg v i = w.toNat % 2 ^ s.cfg.digitBits ∧
        ∀ j, j ≠ i → digit s.cfg v j = digit s.cfg (s.reg r) j))

/-- R64: while a command is pending, a write to a digit window or to `CMD` only sets `WERR`; `CTRL` and
`STATUS` writes are performed normally; other writes are ignored. -/
def Obligations.WritesWhileBusy : Prop :=
  ∀ (s : State) (w0 w : Word), s.pend = some w0 →
    s.memWrite 0x028 w = { s with werr := true } ∧
    (∀ (r : Reg) (i : Nat), i < 1024 →
      s.memWrite (0x1000 + 0x2000 * r.val + 8 * i) w = { s with werr := true }) ∧
    s.memWrite 0x018 w = (if w.getLsbD 1 then afterReset s else { s with ie := w.getLsbD 0 }) ∧
    s.memWrite 0x020 w = { s with done := s.done && !w.getLsbD 1, werr := s.werr && !w.getLsbD 2 } ∧
    (∀ off, off % 8 = 0 → off ≠ 0x018 → off ≠ 0x020 → off ≠ 0x028 → (off < 0x1000 ∨ 0x21000 ≤ off) →
      s.memWrite off w = s)

/-- R95: `OfferCommand`. -/
def Obligations.CommandWriteIsAcceptedOrDropped : Prop :=
  ∀ (s : State) (w : Word),
    (s.pend = none →
      s.memWrite 0x028 w = { s with pend := some w, cmd := w, busy := true, done := false }) ∧
    (s.pend ≠ none → s.memWrite 0x028 w = { s with werr := true })

/-- R29 to R34: where the `STATUS` fields stand, the reserved bits read 0, and a write to `STATUS`, busy
or not, affects only the write-1-to-clear bits 1 and 2. -/
def Obligations.StatusRegister : Prop :=
  ∀ (s : State) (w : Word),
    s.memWrite 0x020 w = { s with done := s.done && !w.getLsbD 1, werr := s.werr && !w.getLsbD 2 } ∧
    (s.memRead 0x020).getLsbD 0 = s.busy ∧ (s.memRead 0x020).getLsbD 1 = s.done ∧
    (s.memRead 0x020).getLsbD 2 = s.werr ∧ (s.memRead 0x020).getLsbD 3 = false ∧
    (s.memRead 0x020).extractLsb' 4 4 =
      (match s.err with
        | .ok => 0 | .invalidArgument => 1 | .outOfMemory => 2 | .unimplemented => 3
        | .divisionByZero => 4 | .illegalCommand => 5) ∧
    (s.memRead 0x020).extractLsb' 8 2 =
      (match s.path with | .unused => 0 | .comba => 1 | .baseline => 2) ∧
    ∀ j, 10 ≤ j → (s.memRead 0x020).getLsbD j = false

/-- R28: `CTRL`, busy or not: with `SRST` clear a write sets `IE`, with `SRST` set it resets and the
written `IE` is discarded; a read shows `IE` alone. -/
def Obligations.ControlRegister : Prop :=
  ∀ (s : State) (w : Word),
    (w.getLsbD 1 = false → s.memWrite 0x018 w = { s with ie := w.getLsbD 0 }) ∧
    (w.getLsbD 1 = true → s.memWrite 0x018 w = afterReset s) ∧
    (s.memRead 0x018).getLsbD 0 = s.ie ∧ ∀ j, 1 ≤ j → (s.memRead 0x018).getLsbD j = false

/-- R38 with R9: `USEDr` reads the least `u` with `B[r] < β^u`, at most 1024, in bits [10:0]. -/
def Obligations.UsedRegisterReadsTheDigitCount : Prop :=
  ∀ (s : State) (r : Reg), s.cfg.Legal → s.reg r < s.cfg.beta ^ s.cfg.maxd →
    ∃ u, s.memRead (0x040 + 8 * r.val) = BitVec.ofNat 64 u ∧ u ≤ 1024 ∧ s.reg r < s.cfg.beta ^ u ∧
      ∀ v, s.reg r < s.cfg.beta ^ v → u ≤ v

/-- R25 to R27: the constant registers `ID`, `PARAM` and `PARAM2`. That `PARAM2` shows only the low 16 bits
of a longer `TAB_SIZE` is the model's reading (log 12); the statement leaves that case out. -/
def Obligations.ConstantRegistersShowTheConfiguration : Prop :=
  ∀ s : State, s.cfg.Legal →
    s.memRead 0x000 = 0x000001074F44494E ∧
    ((s.memRead 0x008).extractLsb' 0 8).toNat = s.cfg.digitBits ∧
    ((s.memRead 0x008).extractLsb' 8 8).toNat = s.cfg.maxWinSize ∧
    ((s.memRead 0x008).extractLsb' 16 16).toNat = s.cfg.maxd ∧
    ((s.memRead 0x008).extractLsb' 32 16).toNat = s.cfg.maxComba ∧
    ((s.memRead 0x008).extractLsb' 48 16).toNat = s.cfg.warray ∧
    (s.cfg.tabSize < 2 ^ 16 → ((s.memRead 0x010).extractLsb' 0 16).toNat = s.cfg.tabSize) ∧
    ((s.memRead 0x010).extractLsb' 16 8).toNat = 16 ∧
    ((s.memRead 0x010).extractLsb' 24 8).toNat = (if s.cfg.digitBits = 28 then 3 else 5) ∧
    (s.memRead 0x010).extractLsb' 32 32 = 0

/-! ## Whole-machine rules -/

/-- R99, R212, R214: an engine step ends in exactly one completion, whatever the word: the flags, `SEQ`
and `irq` as the rule says, `WERR`, `IE`, `CMD`, the configuration and the outside world untouched. -/
def Obligations.EngineStepEndsInOneCompletion : Prop :=
  ∀ (s t : State) (w : Word), s.cfg.Legal → s.nextMove = .engine w → step s = .next t →
    t.done = true ∧ t.busy = false ∧ t.pend = none ∧ t.seq = s.seq + 1 ∧ t.irq = s.ie ∧
    t.werr = s.werr ∧ t.ie = s.ie ∧ t.cmd = s.cmd ∧ t.cfg = s.cfg ∧ t.hostQ = s.hostQ ∧
    t.responses = s.responses ∧ (t.err ≠ .ok → t.path = .unused)

/-- R213: errors are precise: a command that completes with an error writes no register and no `SRES`. -/
def Obligations.FailedCommandWritesNoResult : Prop :=
  ∀ (s t : State) (w : Word), s.cfg.Legal → s.nextMove = .engine w → step s = .next t →
    t.err ≠ .ok → t.b = s.b ∧ t.sres = s.sres

/-- The frame of every command: registers other than the destination, `SRES` for the commands without a
scalar result, `CTRL`, `WERR`, `CMD`, the configuration, the outside world, and every aperture word
outside `STATUS`, `SEQ` and the result's own offsets stay. -/
def Obligations.CommandFrame : Prop :=
  ∀ (i : Instr) (s t : State), exec i s = .next t →
    (∀ r : Reg, destReg i ≠ some r → t.reg r = s.reg r) ∧
    (writesSres i = false → t.sres = s.sres) ∧
    t.cfg = s.cfg ∧ t.ie = s.ie ∧ t.werr = s.werr ∧ t.cmd = s.cmd ∧ t.hostQ = s.hostQ ∧
    t.schedule = s.schedule ∧ t.responses = s.responses ∧
    (∀ off, mayChange i (target off) = false → t.memRead off = s.memRead off)

/-- R207: a legal command completes with one of the codes of the table; `EXPMOD_FAST` with `MODE = 1`
never with OK. -/
def Obligations.CompletionCodesPerCommand : Prop :=
  ∀ (i : Instr) (s t : State), s.Inv → i.wellFormed = true → exec i s = .next t →
    t.err ∈ possibleCodes i

/-- R106: two executions of one command on the same operand values in the same configuration give the
same code, the same path and the same result. -/
def Obligations.CommandDependsOnItsOperandsOnly : Prop :=
  ∀ (i : Instr) (s s' t t' : State), s.cfg = s'.cfg → (∀ r ∈ sourceRegs i, s.reg r = s'.reg r) →
    exec i s = .next t → exec i s' = .next t' →
    t.err = t'.err ∧ t.path = t'.path ∧
    (t.err = .ok → (∀ r, destReg i = some r → t.reg r = t'.reg r) ∧
      (writesSres i = true → t.sres = t'.sres))

/-- R94, R63: while a command is pending, no move of the outside world but a reset changes a register,
the pending word or `CMD`, so its operands are the values at acceptance. -/
def Obligations.OperandsAreStableWhilePending : Prop :=
  ∀ (s t : State) (w : Word) (req : BusReq), s.cfg.Legal → s.pend = some w → s.nextMove = .host req →
    isResetReq s.cfg req = false → step s = .next t →
    t.pend = some w ∧ t.b = s.b ∧ t.cmd = s.cmd ∧ t.busy = s.busy ∧ t.seq = s.seq ∧ t.err = s.err ∧
    t.sres = s.sres

/-- R93: every accepted command is executed unless a reset discards it: after at most one step more than
`schedule` has entries nothing is pending, and without a reset request its completion is the one that was
counted. The bound rests on the model's `schedule` (log 4). -/
def Obligations.PendingCommandIsEventuallyExecuted : Prop :=
  ∀ (s : State) (w : Word), s.cfg.Legal → s.pend = some w →
    ∃ (k : Nat) (t : State), k ≤ s.schedule.length + 1 ∧ Host.Core.run Sys2Proof.core k s = .next t ∧
      t.pend = none ∧
      ((∀ req ∈ s.hostQ, isResetReq s.cfg req = false) → t.seq = s.seq + 1 ∧ t.done = true)

/-- R31: `WERR` is set by a write dropped while a command is pending, cleared by a reset or a `STATUS`
write with bit 2 set, and by nothing else. -/
def Obligations.WriteErrorFlag : Prop :=
  ∀ s t : State, s.cfg.Legal → step s = .next t →
    t.werr = match s.nextMove with
      | .host req =>
        if isResetReq s.cfg req then false
        else if s.pend.isSome && isHazardWrite s.cfg req then true
        else if writesTo s.cfg .status req && dataBit 2 req then false
        else s.werr
      | .engine _ => s.werr
      | .idle => s.werr

/-- R30: `DONE` is set by every completion, cleared by a reset, by the acceptance of a command and by a
`STATUS` write with bit 1 set, and by nothing else. -/
def Obligations.DoneFlag : Prop :=
  ∀ s t : State, s.cfg.Legal → step s = .next t →
    t.done = match s.nextMove with
      | .host req =>
        if isResetReq s.cfg req then false
        else if s.pend.isNone && writesTo s.cfg .cmd req then false
        else if writesTo s.cfg .status req && dataBit 1 req then false
        else s.done
      | .engine _ => true
      | .idle => s.done

/-- R32, R33, R37: `ERR`, `PATH` and `SEQ` change at a completion and at a reset only; a reset makes
`SEQ` 0 and a completion adds 1. R28, R35, R40, R95: `IE` is what a `CTRL` write sets, and a word becomes
pending, and `CMD` shows it, by an idle `CMD` write and by nothing else; a completion and a reset empty
`PEND`, and only a reset clears `CMD`. R23: a register changes only as the destination of a command that
completes with OK, by an idle write of one of its digits, or by a reset. An idle step keeps the state
(log 5, the model's reading). -/
def Obligations.CompletionStateChangesOnlyAtCompletion : Prop :=
  ∀ s t : State, s.cfg.Legal → step s = .next t →
    (match s.nextMove with
      | .engine _ => t.seq = s.seq + 1 ∧ t.ie = s.ie ∧ t.cmd = s.cmd ∧ t.pend = none
      | .host req =>
        if isResetReq s.cfg req then
          t.seq = 0 ∧ t.err = .ok ∧ t.path = .unused ∧ t.ie = false ∧ t.cmd = 0 ∧ t.pend = none
        else
          t.seq = s.seq ∧ t.err = s.err ∧ t.path = s.path ∧
          t.ie = (if writesTo s.cfg .ctrl req then dataBit 0 req else s.ie) ∧
          (if s.pend.isNone && writesTo s.cfg .cmd req
            then t.cmd = dataWord req ∧ t.pend = some (dataWord req)
            else t.cmd = s.cmd ∧ t.pend = s.pend)
      | .idle => t = s) ∧
    ∀ r : Reg, t.reg r ≠ s.reg r →
      (∃ w i, s.nextMove = .engine w ∧ decodeWord w = .ok i ∧ destReg i = some r ∧ t.err = .ok) ∨
      (∃ req, s.nextMove = .host req ∧ (isResetReq s.cfg req = true ∨
        (s.pend = none ∧ ∃ k, k < s.cfg.maxd ∧ writesTo s.cfg (.digit r k) req = true)))

/-- R36: `SRES` is written only at the OK completion of `DR_IS2K`, `DR_IS2K_L` and `RM_TRIALS`, and by a
reset. -/
def Obligations.ScalarResultRegister : Prop :=
  ∀ s t : State, s.cfg.Legal → step s = .next t → t.sres ≠ s.sres →
    (∃ req, s.nextMove = .host req ∧ isResetReq s.cfg req = true) ∨
    (∃ w i, s.nextMove = .engine w ∧ decodeWord w = .ok i ∧ writesSres i = true ∧ t.err = .ok)

/-- R39, R214: the interrupt output is the level `IE AND DONE`: asserted by a completion with `IE = 1` or
by setting `IE` while `DONE = 1`, deasserted by acceptance, by a `STATUS` write with bit 1 set and by
reset. -/
def Obligations.InterruptOutputIsALevel : Prop :=
  ∀ (s : State) (w : Word),
    s.irq = (s.ie && s.done) ∧
    (s.ie = true → ∀ code path, (completed s code path).irq = true) ∧
    (s.done = true → (s.memWrite 0x018 1).irq = true) ∧
    (s.memWrite 0x018 0).irq = false ∧ (s.memWrite 0x018 0).done = s.done ∧
    (s.pend = none → (s.memWrite 0x028 w).irq = false) ∧
    (s.memWrite 0x020 2).irq = false ∧ (s.memWrite 0x018 2).irq = false

/-! ## The commands -/

/-- R104: 0 is the only legal `NOP` word; `NOP` completes with OK and path 0 and does nothing else. -/
def Obligations.NopCompletes : Prop :=
  (∀ w : Word, decodeWord w = .ok .nop ↔ w = 0) ∧ ∀ s : State, exec .nop s = .next (completed s .ok .unused)

/-- R111: `MONT_SETUP` writes the unique `ρ` in `[1, β - 1]` with `(ρ * n0 + 1) mod β = 0`, and raises
`INVALID_ARGUMENT` when digit 0 of the modulus is even. -/
def Obligations.MontSetupGivesTheNegatedInverse : Prop :=
  ∀ (s : State) (rd ra : Reg), s.cfg.Legal →
    decodeWord (wordOf 0x01 rd ra 0 0) = .ok (.montSetup rd ra) ∧
    (s.regDigit0 ra % 2 = 1 → ∃ rho,
      exec (.montSetup rd ra) s = .next (okReg s rd rho .unused) ∧ 1 ≤ rho ∧ rho < s.cfg.beta ∧
      (rho * s.regDigit0 ra + 1) % s.cfg.beta = 0 ∧
      ∀ rho', rho' < s.cfg.beta → (rho' * s.regDigit0 ra + 1) % s.cfg.beta = 0 → rho' = rho) ∧
    (s.regDigit0 ra % 2 = 0 → exec (.montSetup rd ra) s = .next (failed s .invalidArgument))

/-- R113, R114: `MONT_NORM` writes `β^used(b) mod b` for every `b >= 2` that is no multi-digit power of
two, 1 for 1 and `β` for 0 (R115). A multi-digit power of two gives itself, as R115 says, when its top
digit is not full; with a full top digit the doublings of R113 reach 0, and the model follows R113 there
(log 17, the model's own reading, not R115's). -/
def Obligations.MontNormGivesTheRadixResidue : Prop :=
  ∀ (s : State) (rd ra : Reg), s.cfg.Legal → s.reg ra < s.cfg.beta ^ s.cfg.maxd →
    decodeWord (wordOf 0x02 rd ra 0 0) = .ok (.montNorm rd ra) ∧
    (2 ≤ s.reg ra → (∀ j, s.cfg.digitBits ≤ j → s.reg ra ≠ 2 ^ j) →
      exec (.montNorm rd ra) s =
        .next (okReg s rd (s.cfg.beta ^ used s.cfg (s.reg ra) % s.reg ra) .unused)) ∧
    (∀ j, s.cfg.digitBits ≤ j → s.reg ra = 2 ^ j →
      exec (.montNorm rd ra) s =
        .next (okReg s rd (if (j + 1) % s.cfg.digitBits = 0 then 0 else 2 ^ j) .unused)) ∧
    (s.reg ra = 1 → exec (.montNorm rd ra) s = .next (okReg s rd 1 .unused)) ∧
    (s.reg ra = 0 → exec (.montNorm rd ra) s = .next (okReg s rd s.cfg.beta .unused))

/-- R120, R119: `MONT_REDUCE` raises `INVALID_ARGUMENT` for an even modulus; else it writes the value of
R116 with the path of R118, or completes with `OUT_OF_MEMORY` when that value has more than `MAXD`
digits. -/
def Obligations.MontReduceCompletes : Prop :=
  ∀ (s : State) (rd ra rb rc : Reg),
    decodeWord (wordOf 0x03 rd ra rb rc) = .ok (.montReduce rd ra rb rc) ∧
    (s.reg rb % 2 = 0 → exec (.montReduce rd ra rb rc) s = .next (failed s .invalidArgument)) ∧
    (s.reg rb % 2 = 1 →
      let v := montReduceValue s.cfg (s.reg ra) (s.reg rb) (s.regDigit0 rc)
      (used s.cfg v ≤ s.cfg.maxd → exec (.montReduce rd ra rb rc) s = .next (okReg s rd v
        (if 2 * used s.cfg (s.reg rb) + 1 < s.cfg.warray ∧ used s.cfg (s.reg ra) ≤ s.cfg.warray ∧
            used s.cfg (s.reg rb) < s.cfg.maxComba then .comba else .baseline))) ∧
      (s.cfg.maxd < used s.cfg v →
        exec (.montReduce rd ra rb rc) s = .next (failed s .outOfMemory)))

/-- R121: with `n` odd, `ρ = MontSetup(n)` and `x < n²`, `MONT_REDUCE` writes the value in `[0, n)`
congruent to `x * β^(-used(n))` modulo `n`. -/
def Obligations.MontReduceIsMontgomeryReduction : Prop :=
  ∀ (s : State) (rd ra rb rc : Reg), s.cfg.Legal → s.reg rb < s.cfg.beta ^ s.cfg.maxd →
    s.reg rb % 2 = 1 → montSetup s.cfg (s.reg rb) = .ok (s.regDigit0 rc) →
    s.reg ra < s.reg rb * s.reg rb →
    ∃ v path, exec (.montReduce rd ra rb rc) s = .next (okReg s rd v path) ∧ v < s.reg rb ∧
      v * s.cfg.beta ^ used s.cfg (s.reg rb) % s.reg rb = s.reg ra % s.reg rb

/-- R122: outside the precondition the value of R116 stays below `β^(k+1) + n`, with `k = used(n)`, and
only the low `2k + 1` digits of `x` count. -/
def Obligations.MontReduceStaysBounded : Prop :=
  ∀ (c : Config) (x n rho : Nat), c.Legal → n % 2 = 1 →
    montReduceValue c x n rho < c.beta ^ (used c n + 1) + n ∧
    montReduceValue c x n rho = montReduceValue c (x % c.beta ^ (2 * used c n + 1)) n rho

/-- The round trip of R121 (90_conflicts.md C3): for odd `P >= 3`, reducing `x` times the normalization
gives `x mod P`. -/
def Obligations.MontgomeryRoundTrip : Prop :=
  ∀ (c : Config) (x n rho : Nat), c.Legal → n % 2 = 1 → 3 ≤ n → montSetup c n = .ok rho →
    montReduceValue c (x * montNorm c n % n) n rho = x % n

/-- R127, R126: `BAR_SETUP` writes `floor(β^(2 used(P)) / P)`; it raises `DIVISION_BY_ZERO` for 0, and
completes with `OUT_OF_MEMORY` exactly when the quotient's `used(P) + 1` digits, or `used(P) + 2` for
`P = β^(used(P)-1)`, pass `MAXD`. -/
def Obligations.BarrettSetupGivesTheQuotient : Prop :=
  ∀ (s : State) (rd ra : Reg), s.cfg.Legal →
    decodeWord (wordOf 0x04 rd ra 0 0) = .ok (.barSetup rd ra) ∧
    (s.reg ra = 0 → exec (.barSetup rd ra) s = .next (failed s .divisionByZero)) ∧
    (s.reg ra ≠ 0 →
      let k := used s.cfg (s.reg ra)
      let tooLong := s.cfg.maxd < k + 1 ∨ (s.cfg.maxd < k + 2 ∧ s.reg ra = s.cfg.beta ^ (k - 1))
      (¬ tooLong → exec (.barSetup rd ra) s =
        .next (okReg s rd (s.cfg.beta ^ (2 * k) / s.reg ra) .unused)) ∧
      (tooLong → exec (.barSetup rd ra) s = .next (failed s .outOfMemory)))

/-- R132, R130, R131 (d): `BAR_REDUCE` raises `INVALID_ARGUMENT` for modulus 0; for every other operand it
completes OK with the value below `m` at which step 9's loop ends, in or out of the precondition. -/
def Obligations.BarrettReduceCompletesBelowTheModulus : Prop :=
  ∀ (s : State) (rd ra rb rc : Reg), s.cfg.Legal → s.reg rb < s.cfg.beta ^ s.cfg.maxd →
    decodeWord (wordOf 0x05 rd ra rb rc) = .ok (.barReduce rd ra rb rc) ∧
    (s.reg rb = 0 → exec (.barReduce rd ra rb rc) s = .next (failed s .invalidArgument)) ∧
    (s.reg rb ≠ 0 → ∃ v passes,
      exec (.barReduce rd ra rb rc) s = .next (okReg s rd v .unused) ∧ v < s.reg rb ∧
      SubLoop (s.reg rb) passes
        (let k := used s.cfg (s.reg rb)
         let q := s.reg ra / s.cfg.beta ^ (k - 1) * s.reg rc / s.cfg.beta ^ (k + 1)
         (((s.reg ra : Int) - (q * s.reg rb : Nat)) % (s.cfg.beta ^ (k + 1) : Nat)).toNat) v)

/-- R131 (b), (c): with `x < m²` and `μ = BarSetup(m)`, `BAR_REDUCE` writes `x mod m`, and step 9 runs at
most 2 times. -/
def Obligations.BarrettReduceIsTheRemainder : Prop :=
  ∀ (s : State) (rd ra rb rc : Reg), s.cfg.Legal → s.reg rb < s.cfg.beta ^ s.cfg.maxd →
    0 < s.reg rb → s.reg ra < s.reg rb * s.reg rb →
    s.reg rc = s.cfg.beta ^ (2 * used s.cfg (s.reg rb)) / s.reg rb →
    exec (.barReduce rd ra rb rc) s = .next (okReg s rd (s.reg ra % s.reg rb) .unused) ∧
    ∃ passes, passes ≤ 2 ∧ SubLoop (s.reg rb) passes
      (barRemainder s.cfg (s.reg ra) (s.reg rb)
        (barQuotient s.cfg (s.reg ra) (s.reg rc) (used s.cfg (s.reg rb))) (used s.cfg (s.reg rb)))
      (s.reg ra % s.reg rb)

/-- R136, R135: `DR_IS2K` sets `SRES` to 1 when the value has exactly one digit or every bit from bit `DB`
up to its top bit is 1, else to 0. -/
def Obligations.IsTwoKClassifies : Prop :=
  ∀ (s : State) (ra : Reg),
    decodeWord (wordOf 0x06 0 ra 0 0) = .ok (.drIs2k ra) ∧
    (let holds := used s.cfg (s.reg ra) = 1 ∨
        ∀ j, s.cfg.digitBits ≤ j → j < countBits (s.reg ra) → (s.reg ra).testBit j = true
     (holds → exec (.drIs2k ra) s = .next (okScalar s 1)) ∧
     (¬ holds → exec (.drIs2k ra) s = .next (okScalar s 0)))

/-- R138, R137: `DR_IS2K_L` sets `SRES` to 1 when at least half of the digits equal `MASK`, else to 0. -/
def Obligations.IsTwoKLClassifies : Prop :=
  ∀ (s : State) (ra : Reg),
    decodeWord (wordOf 0x07 0 ra 0 0) = .ok (.drIs2kL ra) ∧
    (let u := used s.cfg (s.reg ra)
     let n := (Finset.filter (fun j => digit s.cfg (s.reg ra) j = s.cfg.beta - 1) (Finset.range u)).card
     (u ≤ 2 * n → exec (.drIs2kL ra) s = .next (okScalar s 1)) ∧
     (2 * n < u → exec (.drIs2kL ra) s = .next (okScalar s 0)))

/-- R140, R139: `DR_SETUP` writes digit 0 of `2^count_bits(a) - a`; it always completes OK. -/
def Obligations.DiminishedSetupGivesTheDigit : Prop :=
  ∀ (s : State) (rd ra : Reg), s.cfg.Legal →
    decodeWord (wordOf 0x08 rd ra 0 0) = .ok (.drSetup rd ra) ∧
    exec (.drSetup rd ra) s =
      .next (okReg s rd ((2 ^ countBits (s.reg ra) - s.reg ra) % s.cfg.beta) .unused)

/-- R142, R141: `DR_SETUP_L` writes `2^count_bits(P) - P`, at most `max(P, 1)`; it always completes OK. -/
def Obligations.DiminishedLongSetupGivesTheDifference : Prop :=
  ∀ (s : State) (rd ra : Reg), s.cfg.Legal → s.reg ra < s.cfg.beta ^ s.cfg.maxd →
    decodeWord (wordOf 0x09 rd ra 0 0) = .ok (.drSetupL rd ra) ∧
    ∃ v, v + s.reg ra = 2 ^ countBits (s.reg ra) ∧ v ≤ max (s.reg ra) 1 ∧
      exec (.drSetupL rd ra) s = .next (okReg s rd v .unused)

/-- R146: `DR_REDUCE` reads digit 0 of the `d` register; it raises `INVALID_ARGUMENT` for `n = 0` or
`d >= 2^count_bits(n)`, and else writes the value below `n` at which the loop of R143 ends. -/
def Obligations.DiminishedReduceRunsTheLoop : Prop :=
  ∀ (s : State) (rd ra rb rc : Reg), s.cfg.Legal → s.reg rb < s.cfg.beta ^ s.cfg.maxd →
    decodeWord (wordOf 0x0A rd ra rb rc) = .ok (.drReduce rd ra rb rc) ∧
    (let d := s.reg rc % s.cfg.beta
     (s.reg rb = 0 ∨ 2 ^ countBits (s.reg rb) ≤ d →
       exec (.drReduce rd ra rb rc) s = .next (failed s .invalidArgument)) ∧
     (s.reg rb ≠ 0 → d < 2 ^ countBits (s.reg rb) → ∃ v,
       exec (.drReduce rd ra rb rc) s = .next (okReg s rd v .unused) ∧ v < s.reg rb ∧
       RedLoop (s.reg rb) d true (s.reg ra) v))

/-- R147: `DR_REDUCE_L`, the same with the whole `d` register. -/
def Obligations.DiminishedLongReduceRunsTheLoop : Prop :=
  ∀ (s : State) (rd ra rb rc : Reg), s.cfg.Legal → s.reg rb < s.cfg.beta ^ s.cfg.maxd →
    decodeWord (wordOf 0x0B rd ra rb rc) = .ok (.drReduceL rd ra rb rc) ∧
    (s.reg rb = 0 ∨ 2 ^ countBits (s.reg rb) ≤ s.reg rc →
      exec (.drReduceL rd ra rb rc) s = .next (failed s .invalidArgument)) ∧
    (s.reg rb ≠ 0 → s.reg rc < 2 ^ countBits (s.reg rb) → ∃ v,
      exec (.drReduceL rd ra rb rc) s = .next (okReg s rd v .unused) ∧ v < s.reg rb ∧
      RedLoop (s.reg rb) (s.reg rc) false (s.reg ra) v)

/-- R145, R148, R149: where the check of R144 passes, `DR_REDUCE` and `DR_REDUCE_L` write `a` itself for
`a < n`, and `a mod n` when `n` divides `2^count_bits(n) - d`; `d` is digit 0 of its register for the
former, the whole register for the latter. -/
def Obligations.DiminishedReductionIsModular : Prop :=
  ∀ (s : State) (rd ra rb rc : Reg), s.cfg.Legal → s.reg rb < s.cfg.beta ^ s.cfg.maxd → s.reg rb ≠ 0 →
    (let d := s.reg rc % s.cfg.beta
     d < 2 ^ countBits (s.reg rb) →
      (s.reg ra < s.reg rb →
        exec (.drReduce rd ra rb rc) s = .next (okReg s rd (s.reg ra) .unused)) ∧
      (((2 : Int) ^ countBits (s.reg rb) - (d : Int)) % (s.reg rb : Int) = 0 →
        exec (.drReduce rd ra rb rc) s = .next (okReg s rd (s.reg ra % s.reg rb) .unused))) ∧
    (let d := s.reg rc
     d < 2 ^ countBits (s.reg rb) →
      (s.reg ra < s.reg rb →
        exec (.drReduceL rd ra rb rc) s = .next (okReg s rd (s.reg ra) .unused)) ∧
      (((2 : Int) ^ countBits (s.reg rb) - (d : Int)) % (s.reg rb : Int) = 0 →
        exec (.drReduceL rd ra rb rc) s = .next (okReg s rd (s.reg ra % s.reg rb) .unused)))

/-- R160, R163, R164: `EXPMOD`, every `MODE`, writes `G^X mod P` (1 for `P = 1`, `X = 0`), and raises
`DIVISION_BY_ZERO` for `P = 0`. -/
def Obligations.ExpmodIsModularExponentiation : Prop :=
  ∀ (s : State) (rd ra rb rc : Reg) (mode : RedMode), s.cfg.Legal →
    s.reg rc < s.cfg.beta ^ s.cfg.maxd →
    decodeWord (wordOf 0x0C rd ra rb rc ||| BitVec.ofNat 64 (mode.val <<< 24))
      = .ok (.expmod rd ra rb rc mode) ∧
    (s.reg rc = 0 → exec (.expmod rd ra rb rc mode) s = .next (failed s .divisionByZero)) ∧
    (s.reg rc ≠ 0 → exec (.expmod rd ra rb rc mode) s =
      .next (okReg s rd (powResult (s.reg ra) (s.reg rb) (s.reg rc)) .unused))

/-- R161, R162, R163, R164 for `MODE = 0`: `EXPMOD_FAST` writes `G^X mod P` for every odd `P`, with the
path of R159, and raises `INVALID_ARGUMENT` for an even `P`. -/
def Obligations.FastExpmodMontgomeryIsModularExponentiation : Prop :=
  ∀ (s : State) (rd ra rb rc : Reg), s.cfg.Legal → s.reg rc < s.cfg.beta ^ s.cfg.maxd →
    (s.reg rc % 2 = 0 → exec (.expmodFast rd ra rb rc 0) s = .next (failed s .invalidArgument)) ∧
    (s.reg rc % 2 = 1 → exec (.expmodFast rd ra rb rc 0) s =
      .next (okReg s rd (s.reg ra ^ s.reg rb % s.reg rc)
        (if 2 * used s.cfg (s.reg rc) + 1 < s.cfg.warray ∧ used s.cfg (s.reg rc) < s.cfg.maxComba
          then .comba else .baseline)))

/-- R161, R163, R164 for `MODE = 2`: `DIVISION_BY_ZERO` for `P = 0`; `G^X mod P` when the single-digit
constant is exact; some value below `P` otherwise. -/
def Obligations.FastExpmodDiminishedIsModularExponentiation : Prop :=
  ∀ (s : State) (rd ra rb rc : Reg), s.cfg.Legal → s.reg rc < s.cfg.beta ^ s.cfg.maxd →
    (s.reg rc = 0 → exec (.expmodFast rd ra rb rc 2) s = .next (failed s .divisionByZero)) ∧
    (s.reg rc ≠ 0 → 2 ^ countBits (s.reg rc) - s.reg rc < s.cfg.beta →
      exec (.expmodFast rd ra rb rc 2) s =
        .next (okReg s rd (powResult (s.reg ra) (s.reg rb) (s.reg rc)) .unused)) ∧
    (s.reg rc ≠ 0 → s.cfg.beta ≤ 2 ^ countBits (s.reg rc) - s.reg rc → ∃ v, v < s.reg rc ∧
      exec (.expmodFast rd ra rb rc 2) s = .next (okReg s rd v .unused))

/-- R87, R204: `EXPMOD_FAST` with `MODE = 1` is a legal word and completes with `UNIMPLEMENTED`, whatever
its operands; with `MODE` 3 to 15 the word is illegal. -/
def Obligations.FastExpmodModeOneIsUnimplemented : Prop :=
  ∀ (s : State) (rd ra rb rc : Reg),
    decodeWord (wordOf 0x0D rd ra rb rc ||| BitVec.ofNat 64 (1 <<< 24))
      = .ok (.expmodFast rd ra rb rc 1) ∧
    exec (.expmodFast rd ra rb rc 1) s = .next (failed s .unimplemented) ∧
    ∀ mode : RedMode, 3 ≤ mode.val →
      decodeWord (wordOf 0x0D rd ra rb rc ||| BitVec.ofNat 64 (mode.val <<< 24)) = .error .reservedMode

/-- R171, R170: `RM_TRIALS` writes the trial count of the signed bit size, sign-extended, to `SRES`. -/
def Obligations.TrialCountsFollowTheTable : Prop :=
  ∀ (s : State) (imm : BitVec 32),
    decodeWord (BitVec.ofNat 64 (0x0E ||| imm.toNat <<< 32)) = .ok (.rmTrials imm) ∧
    (imm.toInt ≤ 80 → exec (.rmTrials imm) s = .next (okScalar s 0xFFFFFFFFFFFFFFFF)) ∧
    (∀ row ∈ trialRows, row.1 ≤ imm.toInt → imm.toInt ≤ row.2.1 →
      exec (.rmTrials imm) s = .next (okScalar s (BitVec.ofInt 64 row.2.2))) ∧
    (10240 ≤ imm.toInt → exec (.rmTrials imm) s = .next (okScalar s 2))

/-- R152: the window size, with and without the cap; it lies in 1 to 8. -/
def Obligations.WindowSizeFollowsTheTable : Prop :=
  ∀ (c : Config) (b : Nat),
    (∀ row ∈ windowRows, row.1 ≤ b → b ≤ row.2.1 →
      winSize c b = if 0 < c.maxWinSize then min c.maxWinSize row.2.2 else row.2.2) ∧
    (3530 ≤ b → winSize c b = if 0 < c.maxWinSize then min c.maxWinSize 8 else 8) ∧
    1 ≤ winSize c b ∧ winSize c b ≤ 8

/-- R159: for every value below `P²` the fast variant's size bound is the selection condition of R118. -/
def Obligations.FastPathConditionIsTheReductionsCondition : Prop :=
  ∀ (c : Config) (x p : Nat), c.Legal → x < p * p →
    fastCombaSelected c p = combaSelected c x p
end

