-- ==== Sys2Proof/Laws/Arith.lean ====
section
/-! SUPPORT. What `countBits`, `used`, `digit` and `setDigit` are, in the terms of 00_scope.md R9. -/

namespace Sys2Proof.Machine

variable {c : Config}

/-! ### Legal configurations -/

theorem Legal_digitBits_pos (h : c.Legal) : 0 < c.digitBits := by
  rcases h.1 with h | h <;> omega

theorem beta_pos (c : Config) : 0 < c.beta := Nat.two_pow_pos _

theorem beta_pow_eq (c : Config) (k : Nat) : c.beta ^ k = 2 ^ (c.digitBits * k) := by
  rw [Config.beta, ← Nat.pow_mul]

theorem one_lt_beta (h : c.Legal) : 1 < c.beta :=
  Nat.one_lt_two_pow (Nat.pos_iff_ne_zero.mp (Legal_digitBits_pos h))

theorem Legal_maxd_ge_two (h : c.Legal) : 2 ≤ c.maxd := h.2.2.2.2.1.1

/-! ### countBits -/

@[simp] theorem countBits_zero : countBits 0 = 0 := rfl

/-- R9: `count_bits(v)` is the least `c` with `v < 2^c`. -/
theorem countBits_le_iff (v k : Nat) : countBits v ≤ k ↔ v < 2 ^ k := by
  unfold countBits
  split
  · next h => subst h; simp
  · next h => rw [← Nat.log2_lt h]; omega

theorem lt_two_pow_countBits (v : Nat) : v < 2 ^ countBits v :=
  (countBits_le_iff v _).mp le_rfl

theorem two_pow_countBits_pred_le (v : Nat) (h : v ≠ 0) : 2 ^ (countBits v - 1) ≤ v := by
  have h1 : ¬ countBits v ≤ countBits v - 1 := by
    have : countBits v ≠ 0 := by simp [countBits, h]
    omega
  rw [countBits_le_iff] at h1
  omega

theorem countBits_pos (v : Nat) (h : v ≠ 0) : 0 < countBits v := by simp [countBits, h]

/-! ### used -/

/-- R9: `used(v)` is the least `u` with `v < β^u`. -/
theorem used_le_iff (hc : 0 < c.digitBits) (v u : Nat) : used c v ≤ u ↔ v < c.beta ^ u := by
  rw [beta_pow_eq, ← countBits_le_iff, used]
  constructor
  · intro h
    have h1 := Nat.lt_mul_div_succ (countBits v + (c.digitBits - 1)) hc
    have h2 : c.digitBits * ((countBits v + (c.digitBits - 1)) / c.digitBits) ≤ c.digitBits * u :=
      Nat.mul_le_mul_left _ h
    rw [Nat.mul_add] at h1
    omega
  · intro h
    have : countBits v + (c.digitBits - 1) < (u + 1) * c.digitBits := by
      rw [Nat.add_mul, Nat.mul_comm u]; omega
    exact Nat.le_of_lt_succ (Nat.div_lt_of_lt_mul (by rw [Nat.mul_comm]; exact this))

theorem lt_beta_pow_used (hc : 0 < c.digitBits) (v : Nat) : v < c.beta ^ used c v :=
  (used_le_iff hc v _).mp le_rfl

theorem beta_pow_used_pred_le (hc : 0 < c.digitBits) (v : Nat) (h : v ≠ 0) :
    c.beta ^ (used c v - 1) ≤ v := by
  have h0 : used c v ≠ 0 := by
    intro e
    have := (used_le_iff hc v 0).mp (by omega)
    simp at this; omega
  have h1 : ¬ used c v ≤ used c v - 1 := by omega
  rw [used_le_iff hc] at h1
  omega

theorem used_pos (hc : 0 < c.digitBits) (v : Nat) (h : v ≠ 0) : 0 < used c v := by
  by_contra h0
  have := (used_le_iff hc v 0).mp (by omega)
  simp at this; omega

@[simp] theorem used_zero (c : Config) : used c 0 = 0 := by
  unfold used
  rcases Nat.eq_zero_or_pos c.digitBits with h | h
  · simp [h]
  · exact Nat.div_eq_of_lt (by simp; omega)

theorem used_eq_iff (hc : 0 < c.digitBits) (v u : Nat) (hu : 0 < u) :
    used c v = u ↔ c.beta ^ (u - 1) ≤ v ∧ v < c.beta ^ u := by
  have h1 := used_le_iff hc v u
  have h2 := used_le_iff hc v (u - 1)
  constructor
  · intro h; exact ⟨by by_contra hh; have := h2.mpr (by omega); omega, h1.mp h.le⟩
  · rintro ⟨ha, hb⟩
    have := h1.mpr hb
    have : ¬ used c v ≤ u - 1 := fun hh => by have := h2.mp hh; omega
    omega

/-! ### digit -/

theorem digit_lt (c : Config) (v i : Nat) : digit c v i < c.beta := Nat.mod_lt _ (beta_pos c)

@[simp] theorem digit_zero_index (c : Config) (v : Nat) : digit c v 0 = v % c.beta := by
  simp [digit]

theorem digit_mul_add_mod (c : Config) (v i : Nat) :
    v % c.beta ^ (i + 1) = digit c v i * c.beta ^ i + v % c.beta ^ i := by
  rw [digit, Nat.pow_succ, Nat.mod_mul, Nat.mul_comm (v / _ % _)]; omega

theorem digit_mul_le (c : Config) (v i : Nat) : digit c v i * c.beta ^ i ≤ v := by
  calc digit c v i * c.beta ^ i ≤ v / c.beta ^ i * c.beta ^ i :=
        Nat.mul_le_mul_right _ (Nat.mod_le _ _)
    _ ≤ v := Nat.div_mul_le_self _ _

/-- A value is its part above digit `i`, its digit `i` and its part below. -/
theorem split_at_digit (c : Config) (v i : Nat) :
    v = v / c.beta ^ (i + 1) * c.beta ^ (i + 1) + digit c v i * c.beta ^ i + v % c.beta ^ i := by
  have h1 := Nat.div_add_mod v (c.beta ^ (i + 1))
  rw [digit_mul_add_mod, Nat.mul_comm] at h1
  omega

theorem setDigit_eq (c : Config) (v i d : Nat) :
    setDigit c v i d =
      v / c.beta ^ (i + 1) * c.beta ^ (i + 1) + d * c.beta ^ i + v % c.beta ^ i := by
  have h := split_at_digit c v i
  have h2 := digit_mul_le c v i
  unfold setDigit
  omega

/-- The low `i` digits of `v` decide every digit below `i`. -/
theorem digit_mod (c : Config) (v i j : Nat) (h : j < i) :
    digit c (v % c.beta ^ i) j = digit c v j := by
  have hd : c.beta ^ (j + 1) ∣ c.beta ^ i := Nat.pow_dvd_pow _ h
  have e (x : Nat) : digit c x j = x % c.beta ^ (j + 1) / c.beta ^ j := by
    rw [digit, Nat.pow_succ, Nat.mod_mul_right_div_self]
  rw [e, e, Nat.mod_mod_of_dvd _ hd]

theorem digit_div (c : Config) (v i j : Nat) : digit c v (i + j) = digit c (v / c.beta ^ i) j := by
  rw [digit, digit, Nat.pow_add, Nat.div_div_eq_div_mul]

theorem setDigit_low_lt (c : Config) (v i d : Nat) (hd : d < c.beta) :
    d * c.beta ^ i + v % c.beta ^ i < c.beta ^ (i + 1) := by
  have h1 : v % c.beta ^ i < c.beta ^ i := Nat.mod_lt _ (Nat.pow_pos (beta_pos c))
  have h2 : (d + 1) * c.beta ^ i ≤ c.beta * c.beta ^ i := Nat.mul_le_mul_right _ hd
  rw [Nat.add_mul] at h2
  rw [Nat.pow_succ, Nat.mul_comm _ c.beta]
  omega

theorem setDigit_div (c : Config) (v i d : Nat) (hd : d < c.beta) :
    setDigit c v i d / c.beta ^ (i + 1) = v / c.beta ^ (i + 1) := by
  rw [setDigit_eq, Nat.add_assoc, Nat.mul_comm, Nat.mul_add_div (Nat.pow_pos (beta_pos c)),
    Nat.div_eq_of_lt (setDigit_low_lt c v i d hd), Nat.add_zero]

theorem setDigit_mod (c : Config) (v i d : Nat) :
    setDigit c v i d % c.beta ^ i = v % c.beta ^ i := by
  rw [setDigit_eq, Nat.pow_succ, show v / (c.beta ^ i * c.beta) * (c.beta ^ i * c.beta) +
    d * c.beta ^ i = c.beta ^ i * (v / (c.beta ^ i * c.beta) * c.beta + d) by ring,
    Nat.mul_add_mod, Nat.mod_mod]

/-- R61: the written digit is stored. -/
theorem digit_setDigit_self (c : Config) (v i d : Nat) (hd : d < c.beta) :
    digit c (setDigit c v i d) i = d := by
  have hp : 0 < c.beta ^ i := Nat.pow_pos (beta_pos c)
  rw [digit, setDigit_eq, Nat.pow_succ, show v / (c.beta ^ i * c.beta) * (c.beta ^ i * c.beta) +
    d * c.beta ^ i = c.beta ^ i * (v / (c.beta ^ i * c.beta) * c.beta + d) by ring,
    Nat.mul_add_div hp, Nat.div_eq_of_lt (Nat.mod_lt _ hp), Nat.add_zero,
    Nat.mul_add_mod_self_right, Nat.mod_eq_of_lt hd]

/-- R61: every other digit stays. -/
theorem digit_setDigit_of_ne (c : Config) (v i j d : Nat) (hd : d < c.beta) (h : j ≠ i) :
    digit c (setDigit c v i d) j = digit c v j := by
  rcases Nat.lt_or_gt_of_ne h with h | h
  · rw [← digit_mod c _ i j h, setDigit_mod, digit_mod c _ i j h]
  · obtain ⟨k, rfl⟩ : ∃ k, j = i + 1 + k := ⟨j - (i + 1), by omega⟩
    rw [digit_div, setDigit_div c v i d hd, ← digit_div]

/-- A digit write below `m` keeps a value below `β^m` there (R21, R61). -/
theorem setDigit_lt (c : Config) (v i d m : Nat) (hd : d < c.beta) (hv : v < c.beta ^ m)
    (hi : i < m) : setDigit c v i d < c.beta ^ m := by
  obtain ⟨k, rfl⟩ : ∃ k, m = i + 1 + k := ⟨m - (i + 1), by omega⟩
  rw [Nat.pow_add] at hv ⊢
  rw [Nat.mul_comm] at hv ⊢
  have h1 := (Nat.div_lt_iff_lt_mul (Nat.pow_pos (beta_pos c))).mpr hv
  exact (Nat.div_lt_iff_lt_mul (Nat.pow_pos (beta_pos c))).mp (by rw [setDigit_div c v i d hd]; exact h1)

/-- The top digit of a positive value is not 0 (R9). -/
theorem digit_used_pred_ne_zero (hc : 0 < c.digitBits) (v : Nat) (h : v ≠ 0) :
    digit c v (used c v - 1) ≠ 0 := by
  have h0 := used_pos hc v h
  have h1 := lt_beta_pow_used hc v
  have h2 := beta_pow_used_pred_le hc v h
  obtain ⟨u, hu⟩ : ∃ u, used c v = u + 1 := ⟨used c v - 1, by omega⟩
  rw [hu] at h1 h2 ⊢
  simp only [Nat.add_sub_cancel] at h2 ⊢
  rw [digit, Nat.mod_eq_of_lt]
  · exact Nat.pos_iff_ne_zero.mp (Nat.div_pos h2 (Nat.pow_pos (beta_pos c)))
  · rw [Nat.div_lt_iff_lt_mul (Nat.pow_pos (beta_pos c)), Nat.mul_comm, ← Nat.pow_succ]; exact h1

/-! ### repeatN -/

@[simp] theorem repeatN_zero {α : Type} (f : α → α) (x : α) : repeatN f 0 x = x := rfl

theorem repeatN_succ {α : Type} (f : α → α) (n : Nat) (x : α) :
    repeatN f (n + 1) x = repeatN f n (f x) := rfl

theorem repeatN_succ' {α : Type} (f : α → α) (n : Nat) (x : α) :
    repeatN f (n + 1) x = f (repeatN f n x) := by
  induction n generalizing x with
  | zero => rfl
  | succ n ih => rw [repeatN_succ, ih, repeatN_succ]

/-- What holds at the start and is kept by `f` holds after every number of repetitions. -/
theorem repeatN_keeps {α : Type} (f : α → α) (P : α → Prop) (hf : ∀ x, P x → P (f x)) (n : Nat)
    (x : α) (h : P x) : P (repeatN f n x) := by
  induction n generalizing x with
  | zero => exact h
  | succ n ih => exact ih _ (hf x h)

end Sys2Proof.Machine
end

