-- ==== Sys2Proof/Laws/Barrett.lean ====
section
/-! SUPPORT. What the Barrett functions compute (42_barrett.md R126, R131, R133). -/

namespace Sys2Proof.Machine

variable {c : Config}

/-! ### Setup (R125, R126) -/

/-- The quotient of a positive `P` lies between `β^k` and `β^(k+1)` (R126). -/
theorem barSetup_bounds (hc : c.Legal) (p : Nat) (hp : p ≠ 0) :
    c.beta ^ used c p ≤ c.beta ^ (2 * used c p) / p ∧
    c.beta ^ (2 * used c p) / p ≤ c.beta ^ (used c p + 1) := by
  have hd := Legal_digitBits_pos hc
  have h0 := used_pos hd p hp
  have h1 := (lt_beta_pow_used hd p).le
  have h2 := beta_pow_used_pred_le hd p hp
  constructor
  · rw [Nat.le_div_iff_mul_le (by omega), Nat.two_mul, Nat.pow_add]
    exact Nat.mul_le_mul_left _ h1
  · apply Nat.div_le_of_le_mul
    calc c.beta ^ (2 * used c p) = c.beta ^ (used c p - 1) * c.beta ^ (used c p + 1) := by
          rw [← Nat.pow_add]; congr 1; omega
      _ ≤ p * c.beta ^ (used c p + 1) := Nat.mul_le_mul_right _ h2

/-- The quotient reaches `β^(k+1)` exactly for `P = β^(k-1)` (R126). -/
theorem barSetup_eq_top_iff (hc : c.Legal) (p : Nat) (hp : p ≠ 0) :
    c.beta ^ (2 * used c p) / p = c.beta ^ (used c p + 1) ↔ p = c.beta ^ (used c p - 1) := by
  have hd := Legal_digitBits_pos hc
  have h0 := used_pos hd p hp
  have h2 := beta_pow_used_pred_le hd p hp
  have hP : 0 < c.beta ^ (used c p + 1) := Nat.pow_pos (beta_pos c)
  have e : c.beta ^ (2 * used c p) = c.beta ^ (used c p - 1) * c.beta ^ (used c p + 1) := by
    rw [← Nat.pow_add]; congr 1; omega
  constructor
  · intro h
    have h3 : c.beta ^ (used c p + 1) * p ≤ c.beta ^ (2 * used c p) := by
      rw [← h]; exact Nat.div_mul_le_self _ _
    rw [e, Nat.mul_comm] at h3
    exact Nat.le_antisymm (Nat.le_of_mul_le_mul_right h3 hP) h2
  · intro h
    rw [e, ← h, Nat.mul_div_cancel_left _ (by omega)]

/-- R126: the digits of the quotient. -/
theorem barSetup_used (hc : c.Legal) (p : Nat) (hp : p ≠ 0) :
    used c (c.beta ^ (2 * used c p) / p) =
      if p = c.beta ^ (used c p - 1) then used c p + 2 else used c p + 1 := by
  have hd := Legal_digitBits_pos hc
  obtain ⟨h1, h2⟩ := barSetup_bounds hc p hp
  split
  · next h =>
    rw [(barSetup_eq_top_iff hc p hp).mpr h, used_eq_iff hd _ _ (by omega)]
    exact ⟨le_rfl, Nat.pow_lt_pow_right (one_lt_beta hc) (by omega)⟩
  · next h =>
    rw [used_eq_iff hd _ _ (by omega)]
    exact ⟨h1, lt_of_le_of_ne h2 fun e => h ((barSetup_eq_top_iff hc p hp).mp e)⟩

/-! ### Reduction (R130) -/

/-- Both branches of step 3 give the quotient estimate of the exact product (R131 (a)). -/
theorem barQuotient_eq (c : Config) (x mu k : Nat) :
    barQuotient c x mu k = x / c.beta ^ (k - 1) * mu / c.beta ^ (k + 1) := by
  unfold barQuotient
  dsimp only
  split
  · rfl
  · unfold mulHigh
    have hP : 0 < c.beta ^ k := Nat.pow_pos (beta_pos c)
    generalize x / c.beta ^ (k - 1) * mu = z
    rw [Nat.pow_succ, ← Nat.div_div_eq_div_mul, ← Nat.div_div_eq_div_mul]
    congr 1
    have := Nat.div_add_mod z (c.beta ^ k)
    rw [show z - z % c.beta ^ k = c.beta ^ k * (z / c.beta ^ k) by omega,
      Nat.mul_div_cancel_left _ hP]

/-- Steps 5 to 8 give the difference modulo `β^(k+1)` (R130). -/
theorem barRemainder_eq (c : Config) (x m q k : Nat) :
    barRemainder c x m q k = (((x : Int) - (q * m : Nat)) % (c.beta ^ (k + 1) : Nat)).toNat := by
  have hP : (0 : Int) < (c.beta ^ (k + 1) : Nat) := by exact_mod_cast Nat.pow_pos (beta_pos c)
  unfold barRemainder
  dsimp only
  generalize hB : (c.beta ^ (k + 1) : Nat) = B at *
  have h1 := Nat.mod_lt x (by omega : 0 < B)
  have h2 := Nat.mod_lt (q * m) (by omega : 0 < B)
  rw [Int.sub_emod, ← Int.natCast_mod, ← Int.natCast_mod]
  congr 1
  split
  · rw [← Int.add_emod_right, Int.emod_eq_of_lt (by omega) (by omega)]
  · rw [Int.emod_eq_of_lt (by omega) (by omega)]

theorem barRemainder_lt (c : Config) (x m q k : Nat) :
    barRemainder c x m q k < c.beta ^ (k + 1) := by
  have hP : (0 : Int) < (c.beta ^ (k + 1) : Nat) := by exact_mod_cast Nat.pow_pos (beta_pos c)
  have h1 := Int.emod_lt_of_pos ((x : Int) - (q * m : Nat)) hP
  have h2 := Int.emod_nonneg ((x : Int) - (q * m : Nat)) hP.ne'
  rw [barRemainder_eq]
  omega

/-- HAC's bound: with the exact constant the estimate is at most 2 below the quotient (R131 (b)). -/
theorem barQuotient_bounds (hc : c.Legal) (x m : Nat) (hm : m ≠ 0) (hx : x < m * m) :
    let q := barQuotient c x (c.beta ^ (2 * used c m) / m) (used c m)
    q * m ≤ x ∧ x < q * m + 3 * m := by
  have hd := Legal_digitBits_pos hc
  have h0 := used_pos hd m hm
  have hmk := lt_beta_pow_used hd m
  obtain ⟨-, hmu⟩ := barSetup_bounds hc m hm
  dsimp only
  rw [barQuotient_eq]
  generalize hk : used c m = k at *
  generalize hMu : c.beta ^ (2 * k) / m = mu at *
  have hA : 0 < c.beta ^ (k - 1) := Nat.pow_pos (beta_pos c)
  have hB : 0 < c.beta ^ (k + 1) := Nat.pow_pos (beta_pos c)
  have hAB : c.beta ^ (2 * k) = c.beta ^ (k - 1) * c.beta ^ (k + 1) := by
    rw [← Nat.pow_add]; congr 1; omega
  have hxs : x < c.beta ^ (k - 1) * c.beta ^ (k + 1) := by
    rw [← hAB, Nat.two_mul, Nat.pow_add]
    calc x < m * m := hx
      _ ≤ c.beta ^ k * c.beta ^ k := Nat.mul_le_mul hmk.le hmk.le
  have hmu1 : mu * m ≤ c.beta ^ (2 * k) := by rw [← hMu]; exact Nat.div_mul_le_self _ _
  have hmu2 : c.beta ^ (2 * k) < (mu + 1) * m := by
    have h := Nat.lt_mul_div_succ (c.beta ^ (2 * k)) (Nat.pos_of_ne_zero hm)
    rwa [hMu, Nat.mul_comm m] at h
  rw [hAB] at hmu1 hmu2
  generalize c.beta ^ (k - 1) = A at *
  generalize c.beta ^ (k + 1) = B at *
  have hq1 : x / A * A ≤ x := Nat.div_mul_le_self _ _
  have hq1' : x < (x / A + 1) * A := by rw [Nat.mul_comm]; exact Nat.lt_mul_div_succ _ hA
  have hq1B : x / A < B := (Nat.div_lt_iff_lt_mul hA).mpr (by rw [Nat.mul_comm]; exact hxs)
  generalize x / A = q1 at *
  have hq3 : q1 * mu / B * B ≤ q1 * mu := Nat.div_mul_le_self _ _
  have hq3' : q1 * mu < (q1 * mu / B + 1) * B := by
    rw [Nat.mul_comm _ B]; exact Nat.lt_mul_div_succ _ hB
  generalize q1 * mu / B = q3 at *
  constructor
  · have h1 : q3 * m * (A * B) ≤ x * (A * B) := by
      calc q3 * m * (A * B) = q3 * B * (A * m) := by ring
        _ ≤ q1 * mu * (A * m) := Nat.mul_le_mul_right _ hq3
        _ = q1 * A * (mu * m) := by ring
        _ ≤ x * (A * B) := Nat.mul_le_mul hq1 hmu1
    exact Nat.le_of_mul_le_mul_right h1 (Nat.mul_pos hA hB)
  · have h1 : x * (A * B) < (q3 * m + 3 * m) * (A * B) := by
      calc x * (A * B) < (q1 + 1) * A * (A * B) := Nat.mul_lt_mul_of_pos_right hq1' (Nat.mul_pos hA hB)
        _ ≤ (q1 + 1) * A * ((mu + 1) * m) := Nat.mul_le_mul_left _ hmu2.le
        _ = (q1 * mu + 1 + q1 + mu) * (A * m) := by ring
        _ ≤ ((q3 + 1) * B + B + B) * (A * m) := Nat.mul_le_mul_right _ (by omega)
        _ = (q3 * m + 3 * m) * (A * B) := by ring
    exact Nat.lt_of_mul_lt_mul_right h1

/-- In the precondition the value before step 9 is `x - q * m`, below `3 * m` (R131 (b)). -/
theorem barRemainder_exact (hc : c.Legal) (x m : Nat) (hm : m ≠ 0) (hx : x < m * m) :
    let q := barQuotient c x (c.beta ^ (2 * used c m) / m) (used c m)
    barRemainder c x m q (used c m) = x - q * m ∧ x - q * m < 3 * m := by
  have hd := Legal_digitBits_pos hc
  obtain ⟨h1, h2⟩ := barQuotient_bounds hc x m hm hx
  dsimp only at h1 h2 ⊢
  generalize barQuotient c x (c.beta ^ (2 * used c m) / m) (used c m) = q at *
  have hbig : 3 * m < c.beta ^ (used c m + 1) := by
    have h3 : 3 ≤ c.beta := by
      have : c.beta = 2 ^ c.digitBits := rfl
      rcases hc.1 with h | h <;> rw [this, h] <;> decide
    rw [Nat.pow_succ, Nat.mul_comm]
    calc m * 3 ≤ m * c.beta := Nat.mul_le_mul_left _ h3
      _ < c.beta ^ used c m * c.beta := Nat.mul_lt_mul_of_pos_right (lt_beta_pow_used hd m) (by omega)
  refine ⟨?_, by omega⟩
  rw [barRemainder_eq, ← Nat.cast_sub h1, Int.emod_eq_of_lt (by omega) (by omega), Int.toNat_natCast]

/-- R131 (c): in the precondition the reduction is the remainder. -/
theorem barReduce_exact (hc : c.Legal) (x m : Nat) (hm : m ≠ 0) (hx : x < m * m) :
    barReduce c x m (c.beta ^ (2 * used c m) / m) = .ok (x % m) := by
  obtain ⟨h1, -⟩ := barRemainder_exact hc x m hm hx
  obtain ⟨h2, -⟩ := barQuotient_bounds hc x m hm hx
  simp only [barReduce, if_neg hm, h1]
  congr 1
  rw [Nat.mul_comm] at h2 ⊢
  exact Nat.sub_mul_mod h2

/-- R131 (d): for every positive modulus the reduction ends below it. -/
theorem barReduce_ok (c : Config) (x m mu : Nat) (hm : m ≠ 0) :
    ∃ v, barReduce c x m mu = .ok v ∧ v < m := by
  simp only [barReduce, if_neg hm]
  exact ⟨_, rfl, Nat.mod_lt _ (by omega)⟩

end Sys2Proof.Machine
end

