-- ==== Sys2Proof/Laws/Encoding.lean ====
section
/-! SUPPORT. The fields of a packed command word (30_encoding.md R81), and the byte lanes of a word
(20_memory.md R54). -/

namespace Sys2Proof

/-! ### Fields of a word, as numbers -/

theorem fieldOpc_toNat (w : Word) : (fieldOpc w).toNat = w.toNat % 2 ^ 8 := by
  simp [fieldOpc, BitVec.extractLsb'_toNat]

theorem extract_toNat (w : Word) (lo k : Nat) :
    (w.extractLsb' lo k).toNat = w.toNat / 2 ^ lo % 2 ^ k := by
  rw [BitVec.extractLsb'_toNat, Nat.shiftRight_eq_div_pow]

theorem fieldRd_val (w : Word) : (fieldRd w).val = w.toNat / 2 ^ 8 % 2 ^ 4 := extract_toNat w 8 4
theorem fieldRa_val (w : Word) : (fieldRa w).val = w.toNat / 2 ^ 12 % 2 ^ 4 := extract_toNat w 12 4
theorem fieldRb_val (w : Word) : (fieldRb w).val = w.toNat / 2 ^ 16 % 2 ^ 4 := extract_toNat w 16 4
theorem fieldRc_val (w : Word) : (fieldRc w).val = w.toNat / 2 ^ 20 % 2 ^ 4 := extract_toNat w 20 4
theorem fieldMode_val (w : Word) : (fieldMode w).val = w.toNat / 2 ^ 24 % 2 ^ 4 := extract_toNat w 24 4
theorem fieldReserved_toNat (w : Word) : (fieldReserved w).toNat = w.toNat / 2 ^ 28 % 2 ^ 4 :=
  extract_toNat w 28 4
theorem fieldImm_toNat (w : Word) : (fieldImm w).toNat = w.toNat / 2 ^ 32 % 2 ^ 32 :=
  extract_toNat w 32 32

/-! ### The packed word -/

/-- The disjoint fields of R81's word add up. -/
theorem packFields_toNat (opc : Nat) (rd ra rb rc : Reg) (mode : RedMode) (imm : BitVec 32)
    (h : opc < 2 ^ 8) :
    (packFields opc rd ra rb rc mode imm).toNat =
      opc + rd.val * 2 ^ 8 + ra.val * 2 ^ 12 + rb.val * 2 ^ 16 + rc.val * 2 ^ 20 +
        mode.val * 2 ^ 24 + imm.toNat * 2 ^ 32 := by
  have h1 := rd.isLt
  have h2 := ra.isLt
  have h3 := rb.isLt
  have h4 := rc.isLt
  have h5 := mode.isLt
  have h6 := imm.isLt
  unfold packFields
  rw [← Nat.shiftLeft_add_eq_or_of_lt h rd.val,
    ← Nat.shiftLeft_add_eq_or_of_lt (i := 12) (by simp only [Nat.shiftLeft_eq]; omega) ra.val,
    ← Nat.shiftLeft_add_eq_or_of_lt (i := 16) (by simp only [Nat.shiftLeft_eq]; omega) rb.val,
    ← Nat.shiftLeft_add_eq_or_of_lt (i := 20) (by simp only [Nat.shiftLeft_eq]; omega) rc.val,
    ← Nat.shiftLeft_add_eq_or_of_lt (i := 24) (by simp only [Nat.shiftLeft_eq]; omega) mode.val,
    ← Nat.shiftLeft_add_eq_or_of_lt (i := 32) (by simp only [Nat.shiftLeft_eq]; omega) imm.toNat,
    BitVec.toNat_ofNat]
  simp only [Nat.shiftLeft_eq]
  omega

section
variable (opc : Nat) (rd ra rb rc : Reg) (mode : RedMode) (imm : BitVec 32) (h : opc < 2 ^ 8)
include h

theorem fieldOpc_packFields : (fieldOpc (packFields opc rd ra rb rc mode imm)).toNat = opc := by
  rw [fieldOpc_toNat, packFields_toNat _ _ _ _ _ _ _ h]; omega

theorem fieldRd_packFields : fieldRd (packFields opc rd ra rb rc mode imm) = rd := by
  ext; rw [fieldRd_val, packFields_toNat _ _ _ _ _ _ _ h]; omega

theorem fieldRa_packFields : fieldRa (packFields opc rd ra rb rc mode imm) = ra := by
  ext; rw [fieldRa_val, packFields_toNat _ _ _ _ _ _ _ h]; omega

theorem fieldRb_packFields : fieldRb (packFields opc rd ra rb rc mode imm) = rb := by
  ext; rw [fieldRb_val, packFields_toNat _ _ _ _ _ _ _ h]; omega

theorem fieldRc_packFields : fieldRc (packFields opc rd ra rb rc mode imm) = rc := by
  ext; rw [fieldRc_val, packFields_toNat _ _ _ _ _ _ _ h]; omega

theorem fieldMode_packFields : fieldMode (packFields opc rd ra rb rc mode imm) = mode := by
  ext; rw [fieldMode_val, packFields_toNat _ _ _ _ _ _ _ h]; omega

theorem fieldReserved_packFields : fieldReserved (packFields opc rd ra rb rc mode imm) = 0 := by
  apply BitVec.eq_of_toNat_eq
  rw [fieldReserved_toNat, packFields_toNat _ _ _ _ _ _ _ h]
  simp only [BitVec.ofNat_eq_ofNat, BitVec.toNat_ofNat]
  omega

theorem fieldImm_packFields : fieldImm (packFields opc rd ra rb rc mode imm) = imm := by
  apply BitVec.eq_of_toNat_eq
  have := imm.isLt
  rw [fieldImm_toNat, packFields_toNat _ _ _ _ _ _ _ h]; omega

end

/-- A word is determined by its fields: with the reserved bits 0 it is the packing of them (R81). -/
theorem packFields_fields (w : Word) (h : fieldReserved w = 0) :
    packFields (fieldOpc w).toNat (fieldRd w) (fieldRa w) (fieldRb w) (fieldRc w) (fieldMode w)
      (fieldImm w) = w := by
  have hr : w.toNat / 2 ^ 28 % 2 ^ 4 = 0 := by rw [← fieldReserved_toNat, h]; rfl
  have := w.isLt
  apply BitVec.eq_of_toNat_eq
  rw [packFields_toNat _ _ _ _ _ _ _ (fieldOpc w).isLt, fieldOpc_toNat, fieldRd_val, fieldRa_val,
    fieldRb_val, fieldRc_val, fieldMode_val, fieldImm_toNat]
  omega

/-! ### What the decoder answers -/

/-- The decoder's one successful case, with everything it has checked (R85). -/
theorem decodeWord_ok_iff (w : Word) (i : Instr) :
    decodeWord w = .ok i ↔ ∃ f, formatOf (fieldOpc w) = some f ∧ instrOfFields w = some i ∧
      fieldReserved w = 0 ∧ unusedFieldsZero f w = true ∧ i.wellFormed = true := by
  unfold decodeWord
  split
  · next f j hf hj =>
    simp only [hf, hj]
    split
    · next h => simp only [reduceCtorEq, false_iff]; rintro ⟨f', -, -, h0, -⟩; exact h h0
    · split
      · next h =>
        simp only [reduceCtorEq, false_iff]; rintro ⟨f', hf', -, -, h0, -⟩; cases hf'; simp_all
      · split
        · next h => simp only [reduceCtorEq, false_iff]; rintro ⟨f', -, hi, -, -, hw⟩; simp_all
        · next h1 h2 h3 =>
          simp only [ne_eq, not_not] at h1
          simp only [Bool.not_eq_false] at h2 h3
          constructor
          · intro h; cases h; exact ⟨f, rfl, rfl, h1, h2, h3⟩
          · rintro ⟨f', -, hi, -⟩; cases hi; rfl
  · next h => simp only [reduceCtorEq, false_iff]; rintro ⟨f, hf, hi, -⟩; exact h f i hf hi

/-! ### Byte lanes (R54) -/

theorem natOfLanes_lanesOfWord (w : Word) : natOfLanes (lanesOfWord w) = w.toNat := by
  have hw := w.isLt
  simp only [lanesOfWord, List.range, List.range.loop, List.map_cons, List.map_nil, natOfLanes,
    extract_toNat]
  omega

/-- The eight lanes of a word give the word back. -/
@[simp] theorem wordOfLanes_lanesOfWord (w : Word) : wordOfLanes (lanesOfWord w) = w := by
  rw [wordOfLanes, natOfLanes_lanesOfWord, BitVec.ofNat_toNat, BitVec.setWidth_eq]

@[simp] theorem lanesOfWord_length (w : Word) : (lanesOfWord w).length = 8 := by
  simp [lanesOfWord]

end Sys2Proof
end

