-- ==== Sys2Proof/Laws/State.lean ====
section
/-! SUPPORT. One lemma per field per update of State, true by rfl, so that no later proof unfolds a record
update; and what `reg` reads after each update. -/

namespace Sys2Proof.Machine

/-! ### setReg -/

@[simp] theorem State.setReg_cfg (s : State) (r : Reg) (v : Nat) :
    (s.setReg r v).cfg = s.cfg := rfl
@[simp] theorem State.setReg_b (s : State) (r : Reg) (v : Nat) :
    (s.setReg r v).b = s.b.set r.val v r.isLt := rfl
@[simp] theorem State.setReg_ie (s : State) (r : Reg) (v : Nat) :
    (s.setReg r v).ie = s.ie := rfl
@[simp] theorem State.setReg_busy (s : State) (r : Reg) (v : Nat) :
    (s.setReg r v).busy = s.busy := rfl
@[simp] theorem State.setReg_done (s : State) (r : Reg) (v : Nat) :
    (s.setReg r v).done = s.done := rfl
@[simp] theorem State.setReg_werr (s : State) (r : Reg) (v : Nat) :
    (s.setReg r v).werr = s.werr := rfl
@[simp] theorem State.setReg_err (s : State) (r : Reg) (v : Nat) :
    (s.setReg r v).err = s.err := rfl
@[simp] theorem State.setReg_path (s : State) (r : Reg) (v : Nat) :
    (s.setReg r v).path = s.path := rfl
@[simp] theorem State.setReg_cmd (s : State) (r : Reg) (v : Nat) :
    (s.setReg r v).cmd = s.cmd := rfl
@[simp] theorem State.setReg_sres (s : State) (r : Reg) (v : Nat) :
    (s.setReg r v).sres = s.sres := rfl
@[simp] theorem State.setReg_seq (s : State) (r : Reg) (v : Nat) :
    (s.setReg r v).seq = s.seq := rfl
@[simp] theorem State.setReg_pend (s : State) (r : Reg) (v : Nat) :
    (s.setReg r v).pend = s.pend := rfl
@[simp] theorem State.setReg_hostQ (s : State) (r : Reg) (v : Nat) :
    (s.setReg r v).hostQ = s.hostQ := rfl
@[simp] theorem State.setReg_schedule (s : State) (r : Reg) (v : Nat) :
    (s.setReg r v).schedule = s.schedule := rfl
@[simp] theorem State.setReg_responses (s : State) (r : Reg) (v : Nat) :
    (s.setReg r v).responses = s.responses := rfl

/-! ### complete -/

@[simp] theorem State.complete_cfg (s : State) (code : Code) (path : MontPath) :
    (s.complete code path).cfg = s.cfg := rfl
@[simp] theorem State.complete_b (s : State) (code : Code) (path : MontPath) :
    (s.complete code path).b = s.b := rfl
@[simp] theorem State.complete_ie (s : State) (code : Code) (path : MontPath) :
    (s.complete code path).ie = s.ie := rfl
@[simp] theorem State.complete_busy (s : State) (code : Code) (path : MontPath) :
    (s.complete code path).busy = false := rfl
@[simp] theorem State.complete_done (s : State) (code : Code) (path : MontPath) :
    (s.complete code path).done = true := rfl
@[simp] theorem State.complete_werr (s : State) (code : Code) (path : MontPath) :
    (s.complete code path).werr = s.werr := rfl
@[simp] theorem State.complete_err (s : State) (code : Code) (path : MontPath) :
    (s.complete code path).err = code := rfl
@[simp] theorem State.complete_path (s : State) (code : Code) (path : MontPath) :
    (s.complete code path).path = if code = .ok then path else .unused := rfl
@[simp] theorem State.complete_cmd (s : State) (code : Code) (path : MontPath) :
    (s.complete code path).cmd = s.cmd := rfl
@[simp] theorem State.complete_sres (s : State) (code : Code) (path : MontPath) :
    (s.complete code path).sres = s.sres := rfl
@[simp] theorem State.complete_seq (s : State) (code : Code) (path : MontPath) :
    (s.complete code path).seq = s.seq + 1 := rfl
@[simp] theorem State.complete_pend (s : State) (code : Code) (path : MontPath) :
    (s.complete code path).pend = none := rfl
@[simp] theorem State.complete_hostQ (s : State) (code : Code) (path : MontPath) :
    (s.complete code path).hostQ = s.hostQ := rfl
@[simp] theorem State.complete_schedule (s : State) (code : Code) (path : MontPath) :
    (s.complete code path).schedule = s.schedule := rfl
@[simp] theorem State.complete_responses (s : State) (code : Code) (path : MontPath) :
    (s.complete code path).responses = s.responses := rfl
@[simp] theorem State.complete_reg (s : State) (code : Code) (path : MontPath) (q : Reg) :
    (s.complete code path).reg q = s.reg q := rfl

/-! ### clearDone -/

@[simp] theorem State.clearDone_cfg (s : State) :
    (s.clearDone).cfg = s.cfg := rfl
@[simp] theorem State.clearDone_b (s : State) :
    (s.clearDone).b = s.b := rfl
@[simp] theorem State.clearDone_ie (s : State) :
    (s.clearDone).ie = s.ie := rfl
@[simp] theorem State.clearDone_busy (s : State) :
    (s.clearDone).busy = s.busy := rfl
@[simp] theorem State.clearDone_done (s : State) :
    (s.clearDone).done = false := rfl
@[simp] theorem State.clearDone_werr (s : State) :
    (s.clearDone).werr = s.werr := rfl
@[simp] theorem State.clearDone_err (s : State) :
    (s.clearDone).err = s.err := rfl
@[simp] theorem State.clearDone_path (s : State) :
    (s.clearDone).path = s.path := rfl
@[simp] theorem State.clearDone_cmd (s : State) :
    (s.clearDone).cmd = s.cmd := rfl
@[simp] theorem State.clearDone_sres (s : State) :
    (s.clearDone).sres = s.sres := rfl
@[simp] theorem State.clearDone_seq (s : State) :
    (s.clearDone).seq = s.seq := rfl
@[simp] theorem State.clearDone_pend (s : State) :
    (s.clearDone).pend = s.pend := rfl
@[simp] theorem State.clearDone_hostQ (s : State) :
    (s.clearDone).hostQ = s.hostQ := rfl
@[simp] theorem State.clearDone_schedule (s : State) :
    (s.clearDone).schedule = s.schedule := rfl
@[simp] theorem State.clearDone_responses (s : State) :
    (s.clearDone).responses = s.responses := rfl
@[simp] theorem State.clearDone_reg (s : State) (q : Reg) :
    (s.clearDone).reg q = s.reg q := rfl

/-! ### clearWerr -/

@[simp] theorem State.clearWerr_cfg (s : State) :
    (s.clearWerr).cfg = s.cfg := rfl
@[simp] theorem State.clearWerr_b (s : State) :
    (s.clearWerr).b = s.b := rfl
@[simp] theorem State.clearWerr_ie (s : State) :
    (s.clearWerr).ie = s.ie := rfl
@[simp] theorem State.clearWerr_busy (s : State) :
    (s.clearWerr).busy = s.busy := rfl
@[simp] theorem State.clearWerr_done (s : State) :
    (s.clearWerr).done = s.done := rfl
@[simp] theorem State.clearWerr_werr (s : State) :
    (s.clearWerr).werr = false := rfl
@[simp] theorem State.clearWerr_err (s : State) :
    (s.clearWerr).err = s.err := rfl
@[simp] theorem State.clearWerr_path (s : State) :
    (s.clearWerr).path = s.path := rfl
@[simp] theorem State.clearWerr_cmd (s : State) :
    (s.clearWerr).cmd = s.cmd := rfl
@[simp] theorem State.clearWerr_sres (s : State) :
    (s.clearWerr).sres = s.sres := rfl
@[simp] theorem State.clearWerr_seq (s : State) :
    (s.clearWerr).seq = s.seq := rfl
@[simp] theorem State.clearWerr_pend (s : State) :
    (s.clearWerr).pend = s.pend := rfl
@[simp] theorem State.clearWerr_hostQ (s : State) :
    (s.clearWerr).hostQ = s.hostQ := rfl
@[simp] theorem State.clearWerr_schedule (s : State) :
    (s.clearWerr).schedule = s.schedule := rfl
@[simp] theorem State.clearWerr_responses (s : State) :
    (s.clearWerr).responses = s.responses := rfl
@[simp] theorem State.clearWerr_reg (s : State) (q : Reg) :
    (s.clearWerr).reg q = s.reg q := rfl

/-! ### dropWrite -/

@[simp] theorem State.dropWrite_cfg (s : State) :
    (s.dropWrite).cfg = s.cfg := rfl
@[simp] theorem State.dropWrite_b (s : State) :
    (s.dropWrite).b = s.b := rfl
@[simp] theorem State.dropWrite_ie (s : State) :
    (s.dropWrite).ie = s.ie := rfl
@[simp] theorem State.dropWrite_busy (s : State) :
    (s.dropWrite).busy = s.busy := rfl
@[simp] theorem State.dropWrite_done (s : State) :
    (s.dropWrite).done = s.done := rfl
@[simp] theorem State.dropWrite_werr (s : State) :
    (s.dropWrite).werr = true := rfl
@[simp] theorem State.dropWrite_err (s : State) :
    (s.dropWrite).err = s.err := rfl
@[simp] theorem State.dropWrite_path (s : State) :
    (s.dropWrite).path = s.path := rfl
@[simp] theorem State.dropWrite_cmd (s : State) :
    (s.dropWrite).cmd = s.cmd := rfl
@[simp] theorem State.dropWrite_sres (s : State) :
    (s.dropWrite).sres = s.sres := rfl
@[simp] theorem State.dropWrite_seq (s : State) :
    (s.dropWrite).seq = s.seq := rfl
@[simp] theorem State.dropWrite_pend (s : State) :
    (s.dropWrite).pend = s.pend := rfl
@[simp] theorem State.dropWrite_hostQ (s : State) :
    (s.dropWrite).hostQ = s.hostQ := rfl
@[simp] theorem State.dropWrite_schedule (s : State) :
    (s.dropWrite).schedule = s.schedule := rfl
@[simp] theorem State.dropWrite_responses (s : State) :
    (s.dropWrite).responses = s.responses := rfl
@[simp] theorem State.dropWrite_reg (s : State) (q : Reg) :
    (s.dropWrite).reg q = s.reg q := rfl

/-! ### doReset -/

@[simp] theorem State.doReset_cfg (s : State) :
    (s.doReset).cfg = s.cfg := rfl
@[simp] theorem State.doReset_b (s : State) :
    (s.doReset).b = Vector.replicate 16 0 := rfl
@[simp] theorem State.doReset_ie (s : State) :
    (s.doReset).ie = false := rfl
@[simp] theorem State.doReset_busy (s : State) :
    (s.doReset).busy = false := rfl
@[simp] theorem State.doReset_done (s : State) :
    (s.doReset).done = false := rfl
@[simp] theorem State.doReset_werr (s : State) :
    (s.doReset).werr = false := rfl
@[simp] theorem State.doReset_err (s : State) :
    (s.doReset).err = .ok := rfl
@[simp] theorem State.doReset_path (s : State) :
    (s.doReset).path = .unused := rfl
@[simp] theorem State.doReset_cmd (s : State) :
    (s.doReset).cmd = 0 := rfl
@[simp] theorem State.doReset_sres (s : State) :
    (s.doReset).sres = 0 := rfl
@[simp] theorem State.doReset_seq (s : State) :
    (s.doReset).seq = 0 := rfl
@[simp] theorem State.doReset_pend (s : State) :
    (s.doReset).pend = none := rfl
@[simp] theorem State.doReset_hostQ (s : State) :
    (s.doReset).hostQ = s.hostQ := rfl
@[simp] theorem State.doReset_schedule (s : State) :
    (s.doReset).schedule = s.schedule := rfl
@[simp] theorem State.doReset_responses (s : State) :
    (s.doReset).responses = s.responses := rfl

/-! ### accept -/

@[simp] theorem State.accept_cfg (s : State) (w : Word) :
    (s.accept w).cfg = s.cfg := rfl
@[simp] theorem State.accept_b (s : State) (w : Word) :
    (s.accept w).b = s.b := rfl
@[simp] theorem State.accept_ie (s : State) (w : Word) :
    (s.accept w).ie = s.ie := rfl
@[simp] theorem State.accept_busy (s : State) (w : Word) :
    (s.accept w).busy = true := rfl
@[simp] theorem State.accept_done (s : State) (w : Word) :
    (s.accept w).done = false := rfl
@[simp] theorem State.accept_werr (s : State) (w : Word) :
    (s.accept w).werr = s.werr := rfl
@[simp] theorem State.accept_err (s : State) (w : Word) :
    (s.accept w).err = s.err := rfl
@[simp] theorem State.accept_path (s : State) (w : Word) :
    (s.accept w).path = s.path := rfl
@[simp] theorem State.accept_cmd (s : State) (w : Word) :
    (s.accept w).cmd = w := rfl
@[simp] theorem State.accept_sres (s : State) (w : Word) :
    (s.accept w).sres = s.sres := rfl
@[simp] theorem State.accept_seq (s : State) (w : Word) :
    (s.accept w).seq = s.seq := rfl
@[simp] theorem State.accept_pend (s : State) (w : Word) :
    (s.accept w).pend = some w := rfl
@[simp] theorem State.accept_hostQ (s : State) (w : Word) :
    (s.accept w).hostQ = s.hostQ := rfl
@[simp] theorem State.accept_schedule (s : State) (w : Word) :
    (s.accept w).schedule = s.schedule := rfl
@[simp] theorem State.accept_responses (s : State) (w : Word) :
    (s.accept w).responses = s.responses := rfl
@[simp] theorem State.accept_reg (s : State) (w : Word) (q : Reg) :
    (s.accept w).reg q = s.reg q := rfl

/-! ### respond -/

@[simp] theorem State.respond_cfg (s : State) (x : BusResp) :
    (s.respond x).cfg = s.cfg := rfl
@[simp] theorem State.respond_b (s : State) (x : BusResp) :
    (s.respond x).b = s.b := rfl
@[simp] theorem State.respond_ie (s : State) (x : BusResp) :
    (s.respond x).ie = s.ie := rfl
@[simp] theorem State.respond_busy (s : State) (x : BusResp) :
    (s.respond x).busy = s.busy := rfl
@[simp] theorem State.respond_done (s : State) (x : BusResp) :
    (s.respond x).done = s.done := rfl
@[simp] theorem State.respond_werr (s : State) (x : BusResp) :
    (s.respond x).werr = s.werr := rfl
@[simp] theorem State.respond_err (s : State) (x : BusResp) :
    (s.respond x).err = s.err := rfl
@[simp] theorem State.respond_path (s : State) (x : BusResp) :
    (s.respond x).path = s.path := rfl
@[simp] theorem State.respond_cmd (s : State) (x : BusResp) :
    (s.respond x).cmd = s.cmd := rfl
@[simp] theorem State.respond_sres (s : State) (x : BusResp) :
    (s.respond x).sres = s.sres := rfl
@[simp] theorem State.respond_seq (s : State) (x : BusResp) :
    (s.respond x).seq = s.seq := rfl
@[simp] theorem State.respond_pend (s : State) (x : BusResp) :
    (s.respond x).pend = s.pend := rfl
@[simp] theorem State.respond_hostQ (s : State) (x : BusResp) :
    (s.respond x).hostQ = s.hostQ := rfl
@[simp] theorem State.respond_schedule (s : State) (x : BusResp) :
    (s.respond x).schedule = s.schedule := rfl
@[simp] theorem State.respond_responses (s : State) (x : BusResp) :
    (s.respond x).responses = x :: s.responses := rfl
@[simp] theorem State.respond_reg (s : State) (x : BusResp) (q : Reg) :
    (s.respond x).reg q = s.reg q := rfl

/-! ### Registers -/

@[simp] theorem State.setReg_reg_self (s : State) (r : Reg) (v : Nat) : (s.setReg r v).reg r = v := by
  simp [State.reg, State.setReg, Vector.get_eq_getElem]

theorem State.setReg_reg_of_ne (s : State) (r q : Reg) (v : Nat) (h : q ≠ r) :
    (s.setReg r v).reg q = s.reg q := by
  have : r.val ≠ q.val := fun e => h (Fin.ext e.symm)
  simp [State.reg, State.setReg, Vector.get_eq_getElem, this]

theorem State.setReg_reg (s : State) (r q : Reg) (v : Nat) :
    (s.setReg r v).reg q = if q = r then v else s.reg q := by
  split
  · next h => rw [h, State.setReg_reg_self]
  · next h => exact State.setReg_reg_of_ne s r q v h

@[simp] theorem State.doReset_reg (s : State) (q : Reg) : s.doReset.reg q = 0 := by
  simp [State.reg, State.doReset, Vector.get_eq_getElem]

@[simp] theorem State.resetOf_reg (c : Config) (q : Reg) : (State.resetOf c).reg q = 0 := by
  simp [State.reg, State.resetOf, Vector.get_eq_getElem]

end Sys2Proof.Machine
end

