-- ==== Sys2Proof/Laws/Ops.lean ====
section
/-! SUPPORT. What the shared operations of the command lifecycle can do: commit and completion
(40_system.md R97 to R100), acceptance (R95), reset (70_reset_and_hazards.md R231). -/

namespace Sys2Proof.Machine

/-! ### Capacity (R97) -/

theorem fits_iff (c : Config) (v : Nat) : fits c v = true ↔ used c v ≤ c.maxd := by simp [fits]

/-- `Need(v)` passes exactly for the values a register can hold (R21, R97). -/
theorem fits_iff_lt {c : Config} (h : c.Legal) (v : Nat) :
    fits c v = true ↔ v < c.beta ^ c.maxd := by
  rw [fits_iff, used_le_iff (Legal_digitBits_pos h)]

theorem fits_of_lt {c : Config} (h : c.Legal) {v : Nat} (hv : v < c.beta ^ c.maxd) :
    fits c v = true := (fits_iff_lt h v).mpr hv

/-- A single digit, and `β` itself, fit in every register: `MAXD >= 2` (R5). -/
theorem fits_of_le_beta {c : Config} (h : c.Legal) {v : Nat} (hv : v ≤ c.beta) :
    fits c v = true := by
  apply fits_of_lt h
  calc v ≤ c.beta := hv
    _ < c.beta ^ 2 := by
      have := one_lt_beta h
      rw [Nat.pow_two]; nlinarith
    _ ≤ c.beta ^ c.maxd := Nat.pow_le_pow_right (beta_pos c) (Legal_maxd_ge_two h)

/-! ### Commit and completion -/

/-- Everything the end of a command can be: an error completion that wrote nothing, an OK completion
without a result, a register that fits, or a scalar. -/
theorem finish_cases (s : State) (out : Except Code (CmdResult × MontPath)) :
    (∃ code, s.finish out = s.complete code .unused) ∨
    (∃ path, s.finish out = s.complete .ok path) ∨
    (∃ rd v path, out = .ok (.register rd v, path) ∧ fits s.cfg v = true ∧
      s.finish out = (s.setReg rd v).complete .ok path) ∨
    (∃ w path, out = .ok (.scalar w, path) ∧
      s.finish out = State.complete { s with sres := w } .ok path) := by
  rcases out with code | ⟨r, path⟩
  · exact .inl ⟨code, rfl⟩
  · rcases r with _ | ⟨rd, v⟩ | w
    · exact .inr (.inl ⟨path, rfl⟩)
    · by_cases hf : fits s.cfg v = true
      · exact .inr (.inr (.inl ⟨rd, v, path, rfl, hf, by simp [State.finish, hf]⟩))
      · exact .inl ⟨.outOfMemory, by simp [State.finish, hf]⟩
    · exact .inr (.inr (.inr ⟨w, path, rfl, rfl⟩))

@[simp] theorem finish_error (s : State) (code : Code) :
    s.finish (.error code) = s.complete code .unused := rfl

@[simp] theorem finish_scalar (s : State) (w : Word) (path : MontPath) :
    s.finish (.ok (.scalar w, path)) = State.complete { s with sres := w } .ok path := rfl

theorem finish_register_of_fits (s : State) (rd : Reg) (v : Nat) (path : MontPath)
    (h : fits s.cfg v = true) :
    s.finish (.ok (.register rd v, path)) = (s.setReg rd v).complete .ok path := by
  simp [State.finish, h]

theorem finish_register_of_not_fits (s : State) (rd : Reg) (v : Nat) (path : MontPath)
    (h : fits s.cfg v = false) :
    s.finish (.ok (.register rd v, path)) = s.complete .outOfMemory .unused := by
  simp [State.finish, h]

@[simp] theorem intoReg_ok (rd : Reg) (v : Nat) :
    intoReg rd (.ok v) = .ok (.register rd v, .unused) := rfl

@[simp] theorem intoReg_error (rd : Reg) (code : Code) : intoReg rd (.error code) = .error code := rfl

section
variable (s : State) (out : Except Code (CmdResult × MontPath))

/-- What every completion leaves alone, whatever the command did (R99). -/
theorem finish_frame :
    (s.finish out).cfg = s.cfg ∧ (s.finish out).ie = s.ie ∧ (s.finish out).werr = s.werr ∧
    (s.finish out).cmd = s.cmd ∧ (s.finish out).hostQ = s.hostQ ∧
    (s.finish out).schedule = s.schedule ∧ (s.finish out).responses = s.responses := by
  rcases finish_cases s out with ⟨_, h⟩ | ⟨_, h⟩ | ⟨_, _, _, _, _, h⟩ | ⟨_, _, _, h⟩ <;>
    rw [h] <;> exact ⟨rfl, rfl, rfl, rfl, rfl, rfl, rfl⟩

/-- What every completion does, whatever the command did (R99). -/
theorem finish_completes :
    (s.finish out).done = true ∧ (s.finish out).busy = false ∧ (s.finish out).pend = none ∧
    (s.finish out).seq = s.seq + 1 ∧
    ((s.finish out).err ≠ .ok → (s.finish out).path = .unused) := by
  rcases finish_cases s out with ⟨_, h⟩ | ⟨_, h⟩ | ⟨_, _, _, _, _, h⟩ | ⟨_, _, _, h⟩ <;>
    rw [h] <;> refine ⟨rfl, rfl, rfl, rfl, fun he => ?_⟩ <;> simp_all

/-- A completion with an error wrote no register and no `SRES` (R98, R213). -/
theorem finish_error_writes_nothing (h : (s.finish out).err ≠ .ok) :
    (s.finish out).b = s.b ∧ (s.finish out).sres = s.sres := by
  rcases finish_cases s out with ⟨_, e⟩ | ⟨_, e⟩ | ⟨_, _, _, _, _, e⟩ | ⟨_, _, _, e⟩ <;>
    rw [e] at h ⊢ <;> first | exact ⟨rfl, rfl⟩ | exact absurd rfl h

/-- A register changes only when it is the destination of the result. -/
theorem finish_reg (q : Reg) (h : ∀ rd v path, out = .ok (.register rd v, path) → q ≠ rd) :
    (s.finish out).reg q = s.reg q := by
  rcases finish_cases s out with ⟨_, e⟩ | ⟨_, e⟩ | ⟨rd, v, p, ho, _, e⟩ | ⟨_, _, _, e⟩ <;> rw [e]
  · rfl
  · rfl
  · exact State.setReg_reg_of_ne s rd q v (h rd v p ho)
  · rfl

/-- `SRES` changes only when the result is a scalar (R36). -/
theorem finish_sres (h : ∀ w path, out ≠ .ok (.scalar w, path)) :
    (s.finish out).sres = s.sres := by
  rcases finish_cases s out with ⟨_, e⟩ | ⟨_, e⟩ | ⟨_, _, _, _, _, e⟩ | ⟨w, p, ho, e⟩ <;> rw [e]
  · rfl
  · rfl
  · rfl
  · exact absurd ho (h w p)

/-- Commit keeps the registers in range: `Need` (R21, R97). -/
theorem finish_regs_bounded (hc : s.cfg.Legal) (h : s.RegsBounded) :
    (s.finish out).RegsBounded := by
  intro r
  rcases finish_cases s out with ⟨_, e⟩ | ⟨_, e⟩ | ⟨rd, v, p, _, hf, e⟩ | ⟨_, _, _, e⟩ <;> rw [e]
  · exact h r
  · exact h r
  · simp only [State.complete_reg, State.complete_cfg, State.setReg_cfg, State.setReg_reg]
    split
    · exact (fits_iff_lt hc v).mp hf
    · exact h r
  · exact h r

end

end Sys2Proof.Machine
end

