-- ==== Sys2Proof/Laws/Bus.lean ====
section
/-! SUPPORT. The aperture's map (20_memory.md R52, R53), and everything a host access can do to the block
(R57, R61, R64). -/

namespace Sys2Proof.Machine

/-! ### The map -/

/-- R53: the digit window of register `r`, digit `i`. -/
theorem target_digit (r : Reg) (i : Nat) (hi : i < 1024) :
    target (0x1000 + 0x2000 * r.val + 8 * i) = .digit r i := by
  have hr := r.isLt
  have h1 : (0x1000 + 0x2000 * r.val + 8 * i - 0x1000) / 0x2000 = r.val := by omega
  have h2 : (0x1000 + 0x2000 * r.val + 8 * i - 0x1000) % 0x2000 / 8 = i := by omega
  unfold target
  iterate 8 rw [if_neg (by omega)]
  rw [if_neg (by omega), if_neg (by omega), if_pos (by omega), h1, h2]
  congr 1
  ext
  simp [Fin.ofNat, Nat.mod_eq_of_lt hr]

/-- R52: the `USEDr` registers. -/
theorem target_used (r : Reg) : target (0x040 + 8 * r.val) = .used r := by
  have hr := r.isLt
  have h1 : (0x040 + 8 * r.val - 0x040) / 8 = r.val := by omega
  unfold target
  iterate 8 rw [if_neg (by omega)]
  rw [if_pos (by omega), h1]
  congr 1
  ext
  simp [Fin.ofNat, Nat.mod_eq_of_lt hr]

/-- R52, R53: the reserved offsets. -/
theorem target_reserved (off : Nat) (h : (0x0C0 ≤ off ∧ off < 0x1000) ∨ 0x21000 ≤ off) :
    target off = .reserved := by
  unfold target
  iterate 8 rw [if_neg (by omega)]
  rw [if_neg (by omega)]
  rcases h with h | h
  · rw [if_pos (by omega)]
  · rw [if_neg (by omega), if_neg (by omega)]

/-- Below the digit windows no offset names a digit, and only its own offset names `CTRL`, `STATUS`,
`CMD`. -/
theorem target_cases (off : Nat) :
    (target off = .ctrl ∧ off = 0x018) ∨ (target off = .status ∧ off = 0x020) ∨
    (target off = .cmd ∧ off = 0x028) ∨
    (∃ r i, target off = .digit r i ∧ 0x1000 ≤ off ∧ off < 0x21000) ∨
    (target off = .id ∨ target off = .param ∨ target off = .param2 ∨ target off = .sres ∨
      target off = .seq ∨ (∃ r, target off = .used r) ∨ target off = .reserved) := by
  generalize ht : target off = t
  unfold target at ht
  repeat' split at ht
  all_goals subst ht
  all_goals first
    | exact .inl ⟨rfl, by assumption⟩
    | exact .inr (.inl ⟨rfl, by assumption⟩)
    | exact .inr (.inr (.inl ⟨rfl, by assumption⟩))
    | exact .inr (.inr (.inr (.inl ⟨_, _, rfl, by omega, by assumption⟩)))
    | exact .inr (.inr (.inr (.inr (.inl rfl))))
    | exact .inr (.inr (.inr (.inr (.inr (.inl rfl)))))
    | exact .inr (.inr (.inr (.inr (.inr (.inr (.inl rfl))))))
    | exact .inr (.inr (.inr (.inr (.inr (.inr (.inr (.inl rfl)))))))
    | exact .inr (.inr (.inr (.inr (.inr (.inr (.inr (.inr (.inl rfl))))))))
    | exact .inr (.inr (.inr (.inr (.inr (.inr (.inr (.inr (.inr (.inl ⟨_, rfl⟩)))))))))
    | exact .inr (.inr (.inr (.inr (.inr (.inr (.inr (.inr (.inr (.inr rfl)))))))))

/-! ### Host writes -/

section
variable (s : State)

theorem writeCtrl_srst (w : Word) (h : w.getLsbD 1 = true) : s.writeCtrl w = s.doReset := by
  simp only [State.writeCtrl, h, if_true]

theorem writeCtrl_ie (w : Word) (h : w.getLsbD 1 = false) :
    s.writeCtrl w = { s with ie := w.getLsbD 0 } := by
  simp only [State.writeCtrl, h, Bool.false_eq_true, if_false]

/-- R61: a `STATUS` write clears `DONE` and `WERR` where its bits 1 and 2 are set. -/
theorem writeStatus_eq (w : Word) :
    s.writeStatus w = { s with done := s.done && !w.getLsbD 1, werr := s.werr && !w.getLsbD 2 } := by
  cases h1 : w.getLsbD 1 <;> cases h2 : w.getLsbD 2 <;>
    simp only [State.writeStatus, State.clearDone, State.clearWerr, h1, h2, if_true, if_false,
      Bool.false_eq_true, Bool.not_true, Bool.not_false, Bool.and_true, Bool.and_false]

/-- Everything a write can do to the block (R61, R64): reset; a new `IE`; the write-1-to-clear bits; an
accepted command; a dropped write; one digit of one register; nothing. -/
theorem writeTarget_cases (t : Target) (w : Word) :
    (t = .ctrl ∧ w.getLsbD 1 = true ∧ s.writeTarget t w = s.doReset) ∨
    (t = .ctrl ∧ w.getLsbD 1 = false ∧ s.writeTarget t w = { s with ie := w.getLsbD 0 }) ∨
    (t = .status ∧ s.writeTarget t w =
      { s with done := s.done && !w.getLsbD 1, werr := s.werr && !w.getLsbD 2 }) ∨
    (t = .cmd ∧ s.pend = none ∧ s.writeTarget t w = s.accept w) ∨
    ((t = .cmd ∨ ∃ r i, t = .digit r i) ∧ s.pend.isSome = true ∧ s.writeTarget t w = s.dropWrite) ∨
    (∃ r i, t = .digit r i ∧ s.pend = none ∧ i < s.cfg.maxd ∧
      s.writeTarget t w = s.setReg r (setDigit s.cfg (s.reg r) i (w.toNat % s.cfg.beta))) ∨
    (s.writeTarget t w = s ∧ t ≠ .ctrl ∧ t ≠ .status ∧ t ≠ .cmd ∧
      (s.pend.isSome = true → ∀ r i, t ≠ .digit r i)) := by
  cases t with
  | ctrl =>
    cases h : w.getLsbD 1 with
    | true => exact .inl ⟨rfl, rfl, writeCtrl_srst s w h⟩
    | false => exact .inr (.inl ⟨rfl, rfl, writeCtrl_ie s w h⟩)
  | status => exact .inr (.inr (.inl ⟨rfl, writeStatus_eq s w⟩))
  | cmd =>
    cases hp : s.pend with
    | none => simp [State.writeTarget, State.offerCommand, hp]
    | some x => simp [State.writeTarget, State.offerCommand, hp]
  | digit r i =>
    cases hp : s.pend with
    | none =>
      by_cases hi : i < s.cfg.maxd
      · refine .inr (.inr (.inr (.inr (.inr (.inl ⟨r, i, rfl, rfl, hi, ?_⟩)))))
        simp [State.writeTarget, State.writeDigit, hp, hi]
      · refine .inr (.inr (.inr (.inr (.inr (.inr ⟨?_, by simp, by simp, by simp, by simp⟩)))))
        simp [State.writeTarget, State.writeDigit, hp, hi]
    | some x => simp [State.writeTarget, State.writeDigit, hp]
  | _ => simp [State.writeTarget]

/-- No write touches the configuration or the outside world. -/
theorem writeTarget_frame (t : Target) (w : Word) :
    (s.writeTarget t w).cfg = s.cfg ∧ (s.writeTarget t w).hostQ = s.hostQ ∧
    (s.writeTarget t w).schedule = s.schedule ∧ (s.writeTarget t w).responses = s.responses := by
  rcases writeTarget_cases s t w with ⟨_, _, e⟩ | ⟨_, _, e⟩ | ⟨_, e⟩ | ⟨_, _, e⟩ | ⟨_, _, e⟩ |
    ⟨_, _, _, _, _, e⟩ | ⟨e, _⟩ <;> rw [e] <;> exact ⟨rfl, rfl, rfl, rfl⟩

/-- Everything one move of the outside world can do (R50, R51, R57, R230): reset; only a response; or a
legal write and its response. -/
theorem hostMove_cases (req : BusReq) :
    (req = .resetInput ∧ s.hostMove req = s.doReset) ∨
    (legalWriteOffset s.cfg req = none ∧ req ≠ .resetInput ∧ ∃ x, s.hostMove req = s.respond x) ∨
    (∃ addr lanes, req = .write addr lanes ∧ legalWriteOffset s.cfg req = some (addr - s.cfg.base) ∧
      s.hostMove req =
        (s.writeTarget (target (addr - s.cfg.base)) (wordOfLanes lanes)).respond .written) := by
  cases req with
  | resetInput => exact .inl ⟨rfl, rfl⟩
  | read addr size =>
    refine .inr (.inl ⟨rfl, by simp, ?_⟩)
    simp only [State.hostMove, State.busRead]
    split
    · exact ⟨_, rfl⟩
    · split <;> exact ⟨_, rfl⟩
  | write addr lanes =>
    by_cases ha : inAperture s.cfg addr = true
    · by_cases hl : legalAccess (addr - s.cfg.base) lanes.length = true
      · exact .inr (.inr ⟨addr, lanes, rfl, by simp [legalWriteOffset, ha, hl],
          by simp [State.hostMove, State.busWrite, State.memWrite, ha, hl]⟩)
      · exact .inr (.inl ⟨by simp [legalWriteOffset, hl], by simp,
          ⟨.busError [], by simp [State.hostMove, State.busWrite, ha, hl]⟩⟩)
    · exact .inr (.inl ⟨by simp [legalWriteOffset, ha], by simp,
        ⟨.notSelected, by simp [State.hostMove, State.busWrite, ha]⟩⟩)

/-- No move of the outside world touches the configuration, the requests left or the schedule. -/
theorem hostMove_frame (req : BusReq) :
    (s.hostMove req).cfg = s.cfg ∧ (s.hostMove req).hostQ = s.hostQ ∧
    (s.hostMove req).schedule = s.schedule := by
  rcases hostMove_cases s req with ⟨_, e⟩ | ⟨_, _, _, e⟩ | ⟨_, _, _, _, e⟩ <;> rw [e]
  · exact ⟨rfl, rfl, rfl⟩
  · exact ⟨rfl, rfl, rfl⟩
  · exact ⟨(writeTarget_frame s _ _).1, (writeTarget_frame s _ _).2.1, (writeTarget_frame s _ _).2.2.1⟩

end

end Sys2Proof.Machine
end

