-- ==== Sys2Proof/Laws/Commands.lean ====
section
/-! SUPPORT. What every command has in common: `exec` is commit and completion of the command's rule, and
the rule's result has the command's own destination (40_system.md R97, R100). -/

namespace Sys2Proof.Machine

/-- The rule of a command on its operand values: its result and path, or the code it raises (R100). -/
def commandRule (i : Instr) (s : State) : Except Code (CmdResult × MontPath) :=
  match i with
  | .nop => .ok (.nothing, .unused)
  | .montSetup rd ra => intoReg rd (montSetup s.cfg (s.reg ra))
  | .montNorm rd ra => intoReg rd (.ok (montNorm s.cfg (s.reg ra)))
  | .montReduce rd ra rb rc =>
    if s.reg rb % 2 = 0 then .error .invalidArgument
    else .ok (.register rd (montReduceValue s.cfg (s.reg ra) (s.reg rb) (s.regDigit0 rc)),
      montReducePath s.cfg (s.reg ra) (s.reg rb))
  | .barSetup rd ra => intoReg rd (barSetup s.cfg (s.reg ra))
  | .barReduce rd ra rb rc => intoReg rd (barReduce s.cfg (s.reg ra) (s.reg rb) (s.reg rc))
  | .drIs2k ra => intoSres (if isTwoK s.cfg (s.reg ra) then 1 else 0)
  | .drIs2kL ra => intoSres (if isTwoKL s.cfg (s.reg ra) then 1 else 0)
  | .drSetup rd ra => intoReg rd (.ok (drSetup s.cfg (s.reg ra)))
  | .drSetupL rd ra => intoReg rd (.ok (drSetupL (s.reg ra)))
  | .drReduce rd ra rb rc => intoReg rd (checkedRed2k (s.reg ra) (s.reg rb) (s.regDigit0 rc) true)
  | .drReduceL rd ra rb rc => intoReg rd (checkedRed2k (s.reg ra) (s.reg rb) (s.reg rc) false)
  | .expmod rd ra rb rc mode =>
    intoReg rd (expmodValue s.cfg (s.reg ra) (s.reg rb) (s.reg rc) mode)
  | .expmodFast rd ra rb rc mode =>
    (expmodFastValue s.cfg (s.reg ra) (s.reg rb) (s.reg rc) mode).map fun r => (.register rd r.1, r.2)
  | .rmTrials imm => intoSres (rmTrials (immValue imm))

/-- R100: every command is its rule, then commit and completion; it always answers a next state. -/
theorem exec_eq (i : Instr) (s : State) : exec i s = .next (s.finish (commandRule i s)) := by
  cases i <;> rfl

theorem exec_next_iff (i : Instr) (s t : State) :
    exec i s = .next t ↔ t = s.finish (commandRule i s) := by
  rw [exec_eq]
  constructor
  · intro h; injection h with h; exact h.symm
  · intro h; rw [h]

/-- A register result comes from a value or an error; nothing else. -/
theorem intoReg_cases (rd : Reg) (v : Except Code Nat) :
    (∃ e, intoReg rd v = .error e) ∨ ∃ x, intoReg rd v = .ok (.register rd x, .unused) := by
  rcases v with e | x
  · exact .inl ⟨e, rfl⟩
  · exact .inr ⟨x, rfl⟩

theorem map_register_cases (rd : Reg) (v : Except Code (Nat × MontPath)) :
    (∃ e, (v.map fun r => (CmdResult.register rd r.1, r.2)) = .error e) ∨
    ∃ x p, (v.map fun r => (CmdResult.register rd r.1, r.2)) = .ok (.register rd x, p) := by
  rcases v with e | ⟨x, p⟩
  · exact .inl ⟨e, rfl⟩
  · exact .inr ⟨x, p, rfl⟩

end Sys2Proof.Machine
end

