-- ==== Sys2Proof/Laws/DiminishedRadix.lean ====
section
/-! SUPPORT. What the diminished-radix functions compute (43_diminished_radix.md R135, R137, R141, R144,
R145). -/

namespace Sys2Proof.Machine

variable {c : Config}

/-! ### Classifiers and setup -/

theorem isTwoK_iff (c : Config) (a : Nat) :
    isTwoK c a = true ↔ used c a = 1 ∨
      ∀ j, c.digitBits ≤ j → j < countBits a → a.testBit j = true := by
  simp only [isTwoK, Bool.or_eq_true, beq_iff_eq, List.all_eq_true, List.mem_range'_1]
  refine or_congr Iff.rfl ⟨fun h j h1 h2 => ?_, fun h j hj => ?_⟩
  · have := h j ⟨h1, by omega⟩
    rw [Nat.testBit_eq_decide_div_mod_eq]
    simpa using this
  · have := h j hj.1 (by omega)
    rw [Nat.testBit_eq_decide_div_mod_eq] at this
    simpa using this

/-- R141: the difference is exact, positive and at most `max(P, 1)`. -/
theorem drSetupL_spec (p : Nat) :
    drSetupL p + p = 2 ^ countBits p ∧ drSetupL p ≤ max p 1 := by
  have h1 := lt_two_pow_countBits p
  unfold drSetupL
  refine ⟨by omega, ?_⟩
  rcases Nat.eq_zero_or_pos p with h | h
  · subst h; decide
  · have h2 := two_pow_countBits_pred_le p (by omega)
    have h3 := countBits_pos p (by omega)
    have h4 : 2 ^ countBits p = 2 * 2 ^ (countBits p - 1) := by
      rw [← Nat.pow_succ']; congr 1; omega
    omega

/-! ### Reduction (R143 to R145) -/

/-- Step 2's exception changes no value (R143). -/
theorem red2kPass_eq (p d : Nat) (single : Bool) (a : Nat) :
    red2kPass p d single a = a % 2 ^ p + a / 2 ^ p * d := by
  unfold red2kPass
  dsimp only
  split
  · next h => simp only [Bool.and_eq_true, beq_iff_eq] at h; rw [h.2, Nat.mul_one]
  · rfl

theorem red2kPass_le (p d : Nat) (single : Bool) (a : Nat) (hd : d < 2 ^ p) :
    red2kPass p d single a ≤ a := by
  rw [red2kPass_eq]
  have h1 := Nat.div_add_mod' a (2 ^ p)
  have h2 : a / 2 ^ p * d ≤ a / 2 ^ p * 2 ^ p := Nat.mul_le_mul_left _ hd.le
  omega

/-- With enough passes the loop ends below `n` (R144). -/
theorem red2kLoop_lt (n d : Nat) (single : Bool) (hn : n ≠ 0) (hd : d < 2 ^ countBits n)
    (fuel a : Nat) (hf : a < fuel) : red2kLoop n d single fuel a < n := by
  induction fuel generalizing a with
  | zero => omega
  | succ fuel ih =>
    have h := red2kPass_le (countBits n) d single a hd
    unfold red2kLoop
    dsimp only
    split
    · assumption
    · exact ih _ (by omega)

/-- When `n` divides `2^p - d` every pass keeps the residue (R145). -/
theorem red2kLoop_mod (n d : Nat) (single : Bool) (h : (2 ^ countBits n) % n = d % n)
    (fuel a : Nat) : red2kLoop n d single fuel a % n = a % n := by
  induction fuel generalizing a with
  | zero => rfl
  | succ fuel ih =>
    have hp : red2kPass (countBits n) d single a % n = a % n := by
      rw [red2kPass_eq]
      have h1 : a / 2 ^ countBits n * d ≡ a / 2 ^ countBits n * 2 ^ countBits n [MOD n] :=
        Nat.ModEq.mul_left _ (Eq.symm h)
      calc (a % 2 ^ countBits n + a / 2 ^ countBits n * d) % n
          = (a % 2 ^ countBits n + a / 2 ^ countBits n * 2 ^ countBits n) % n :=
            Nat.ModEq.add_left _ h1
        _ = a % n := by rw [Nat.mod_add_div']
    unfold red2kLoop
    dsimp only
    split
    · exact hp
    · next hge =>
      rw [ih, ← hp]
      exact (Nat.mod_eq_sub_mod (by omega)).symm

/-- R144, R145: where the check passes, the reduction ends below `n`. -/
theorem red2k_lt (a n d : Nat) (single : Bool) (hn : n ≠ 0) (hd : d < 2 ^ countBits n) :
    red2k a n d single < n := red2kLoop_lt n d single hn hd _ _ (by omega)

/-- R145: with the exact constant the reduction is the remainder. -/
theorem red2k_exact (a n : Nat) (single : Bool) (hn : n ≠ 0) :
    red2k a n (drSetupL n) single = a % n := by
  have h1 := drSetupL_spec n
  have hd : drSetupL n < 2 ^ countBits n := by omega
  have hm : (2 ^ countBits n) % n = drSetupL n % n := by rw [← h1.1, Nat.add_mod_right]
  rw [← Nat.mod_eq_of_lt (red2k_lt a n _ single hn hd)]
  exact red2kLoop_mod n _ single hm _ _

/-- The truncated constant is below `2^p`, so the controller's calls end (44_exponentiation.md R157). -/
theorem drSetup_lt (c : Config) (p : Nat) (hp : p ≠ 0) : drSetup c p < 2 ^ countBits p := by
  have h := lt_two_pow_countBits p
  unfold drSetup
  rw [digit_zero_index]
  exact (Nat.mod_le _ _).trans_lt (by omega)

theorem drSetup_of_lt (c : Config) (p : Nat) (h : 2 ^ countBits p - p < c.beta) :
    drSetup c p = drSetupL p := by
  rw [drSetup, drSetupL, digit_zero_index, Nat.mod_eq_of_lt h]

end Sys2Proof.Machine
end

