-- ==== Sys2Proof/Laws/Montgomery.lean ====
section
/-! SUPPORT. What the Montgomery functions compute (41_montgomery.md R112, R115, R121, R122). -/

namespace Sys2Proof.Machine

variable {c : Config}

/-! ### Setup (R110, R112) -/

/-- The seed is the inverse of an odd `n0` modulo 16 (R110). -/
theorem henselSeed_spec (n0 : Nat) (h : n0 % 2 = 1) :
    ((2 : Int) ^ 4) ∣ (henselSeed n0 : Int) * n0 - 1 := by
  have key : henselSeed n0 * n0 % 16 = 1 := by
    have hb : (n0 + 2) &&& 4 = (n0 + 2) / 4 % 2 * 4 := by
      have e := Nat.and_two_pow (n0 + 2) 2
      rw [Nat.testBit_eq_decide_div_mod_eq] at e
      norm_num at e
      rcases Nat.mod_two_eq_zero_or_one ((n0 + 2) / 4) with h | h <;> simp [h] at e ⊢ <;> exact e
    unfold henselSeed
    rw [hb, Nat.shiftLeft_eq]
    obtain ⟨q, r, hr, rfl⟩ : ∃ q r, r < 16 ∧ n0 = 16 * q + r :=
      ⟨n0 / 16, n0 % 16, Nat.mod_lt _ (by decide), by omega⟩
    have hm : ((16 * q + r + 2) / 4 % 2 * 4 * 2 ^ 1 + (16 * q + r)) % 16 =
        ((r + 2) / 4 % 2 * 8 + r) % 16 := by omega
    rw [Nat.mul_mod, hm, Nat.mul_add_mod]
    have h2 : r % 2 = 1 := by omega
    interval_cases r <;> revert h2 <;> decide
  omega

theorem henselStep_lt (c : Config) (n0 x : Nat) : henselStep c n0 x < c.beta := by
  have hb : (0 : Int) < c.beta := by exact_mod_cast beta_pos c
  have h1 := Int.emod_lt_of_pos ((x : Int) * (2 - (n0 : Int) * (x : Int))) hb
  have h2 := Int.emod_nonneg ((x : Int) * (2 - (n0 : Int) * (x : Int))) hb.ne'
  unfold henselStep
  omega

/-- Each doubling step doubles the number of correct low bits, up to `DB` (R112). -/
theorem henselStep_spec (c : Config) (n0 x k k' : Nat) (h : ((2 : Int) ^ k) ∣ (x : Int) * n0 - 1)
    (hk : k' ≤ 2 * k) (hd : k' ≤ c.digitBits) :
    ((2 : Int) ^ k') ∣ (henselStep c n0 x : Int) * n0 - 1 := by
  have hb : (0 : Int) < c.beta := by exact_mod_cast beta_pos c
  have hcast : (henselStep c n0 x : Int) = ((x : Int) * (2 - (n0 : Int) * (x : Int))) % (c.beta : Int) := by
    unfold henselStep
    exact Int.toNat_of_nonneg (Int.emod_nonneg _ hb.ne')
  have hbeta : ((2 : Int) ^ k') ∣ (c.beta : Int) := by
    rw [Config.beta]; push_cast; exact pow_dvd_pow 2 hd
  have hsq : ((2 : Int) ^ k') ∣ ((x : Int) * n0 - 1) ^ 2 :=
    (pow_dvd_pow 2 hk).trans (by rw [Nat.mul_comm, pow_mul]; exact pow_dvd_pow_of_dvd h 2)
  rw [hcast, Int.emod_def]
  obtain ⟨u, hu⟩ := hsq
  obtain ⟨v, hv⟩ := hbeta
  refine ⟨-u - v * (((x : Int) * (2 - (n0 : Int) * (x : Int))) / (c.beta : Int)) * n0, ?_⟩
  have e : ((x : Int) * n0 - 1) ^ 2 = (x * n0) ^ 2 - 2 * (x * n0) + 1 := by ring
  rw [e] at hu
  linear_combination (-1 : Int) * hu - (((x : Int) * (2 - (n0 : Int) * (x : Int))) / (c.beta : Int)) * n0 * hv

/-- After `HENSEL_ITERS` steps the iterate is the inverse of `n0` modulo `β` (R112). -/
theorem hensel_inverse (hc : c.Legal) (n0 : Nat) (h : n0 % 2 = 1) :
    repeatN (henselStep c n0) c.henselIters (henselSeed n0) < c.beta ∧
    ((c.beta : Int)) ∣
      ((repeatN (henselStep c n0) c.henselIters (henselSeed n0) : Nat) : Int) * n0 - 1 := by
  have h0 := henselSeed_spec n0 h
  have hbeta : (c.beta : Int) = 2 ^ c.digitBits := by rw [Config.beta]; push_cast; rfl
  rcases hc.1 with hd | hd
  · have hi : c.henselIters = 3 := by simp [Config.henselIters, hd]
    rw [hi, hbeta, hd]
    have h1 := henselStep_spec c n0 _ 4 8 h0 (by decide) (by omega)
    have h2 := henselStep_spec c n0 _ 8 16 h1 (by decide) (by omega)
    exact ⟨henselStep_lt _ _ _, henselStep_spec c n0 _ 16 28 h2 (by decide) (by omega)⟩
  · have hi : c.henselIters = 5 := by simp [Config.henselIters, hd]
    rw [hi, hbeta, hd]
    have h1 := henselStep_spec c n0 _ 4 8 h0 (by decide) (by omega)
    have h2 := henselStep_spec c n0 _ 8 16 h1 (by decide) (by omega)
    have h3 := henselStep_spec c n0 _ 16 32 h2 (by decide) (by omega)
    have h4 := henselStep_spec c n0 _ 32 60 h3 (by decide) (by omega)
    exact ⟨henselStep_lt _ _ _, henselStep_spec c n0 _ 60 60 h4 (by decide) (by omega)⟩

theorem montSetup_even (c : Config) (n : Nat) (h : digit c n 0 % 2 = 0) :
    montSetup c n = .error .invalidArgument := by simp only [montSetup, h, if_true]

/-- R112: what `MontSetup` returns for an odd low digit. -/
theorem montSetup_odd (hc : c.Legal) (n : Nat) (h : digit c n 0 % 2 = 1) :
    ∃ rho, montSetup c n = .ok rho ∧ 1 ≤ rho ∧ rho < c.beta ∧
      (rho * digit c n 0 + 1) % c.beta = 0 := by
  obtain ⟨hlt, hdvd⟩ := hensel_inverse hc (digit c n 0) h
  have hb := one_lt_beta hc
  simp only [montSetup, h, Nat.one_ne_zero, if_false]
  generalize repeatN (henselStep c (digit c n 0)) c.henselIters (henselSeed (digit c n 0)) = x at *
  have hx : x ≠ 0 := by
    rintro rfl
    have h1 : (c.beta : Int) ∣ 1 := by simpa using (Int.dvd_neg.mpr hdvd)
    have := Int.eq_one_of_dvd_one (by positivity) h1
    omega
  have hr : (c.beta - x) % c.beta = c.beta - x := Nat.mod_eq_of_lt (by omega)
  refine ⟨_, rfl, ?_, ?_, ?_⟩
  · rw [hr]; omega
  · rw [hr]; omega
  · rw [hr]
    have : (c.beta : Int) ∣ ((c.beta - x : Nat) : Int) * digit c n 0 + 1 := by
      obtain ⟨u, hu⟩ := hdvd
      refine ⟨digit c n 0 - u, ?_⟩
      rw [Nat.cast_sub hlt.le]
      linear_combination (-1 : Int) * hu
    exact Nat.mod_eq_zero_of_dvd (by exact_mod_cast this)

/-! ### Normalization (R113, R115) -/

theorem doubleMod_of_lt (b a : Nat) (h : a < b) : doubleMod b a = 2 * a % b := by
  unfold doubleMod
  split
  · rw [Nat.mod_eq_sub_mod (by omega), Nat.mod_eq_of_lt (by omega)]
  · rw [Nat.mod_eq_of_lt (by omega)]

/-- Doublings that start below `b` multiply by a power of two modulo `b` (R113). -/
theorem repeatN_doubleMod (b a n : Nat) (h : a < b) :
    repeatN (doubleMod b) n a = 2 ^ n * a % b := by
  induction n generalizing a with
  | zero => simp [Nat.mod_eq_of_lt h]
  | succ n ih =>
    rw [repeatN_succ, doubleMod_of_lt b a h, ih _ (Nat.mod_lt _ (by omega)), Nat.mul_mod_mod,
      Nat.pow_succ, Nat.mul_assoc]

theorem repeatN_doubleMod_fixed (b n : Nat) : repeatN (doubleMod b) n b = b := by
  induction n with
  | zero => rfl
  | succ n ih =>
    rw [repeatN_succ, show doubleMod b b = b by unfold doubleMod; split <;> omega, ih]

theorem repeatN_doubleMod_zero (n a : Nat) : repeatN (doubleMod 0) n a = 2 ^ n * a := by
  induction n generalizing a with
  | zero => simp
  | succ n ih => rw [repeatN_succ, ih, show doubleMod 0 a = 2 * a by simp [doubleMod]]; ring

/-- The start value and the number of doublings of a multi-digit modulus (R113). -/
theorem montNorm_exponents (hc : c.Legal) (b : Nat) (h : 1 < used c b) :
    let p := (used c b - 1) * c.digitBits + countBits b % c.digitBits - 1
    p + (c.digitBits - countBits b % c.digitBits + 1) = c.digitBits * used c b ∧
    p ≤ countBits b - 1 ∧ (p = countBits b - 1 ∨ p + 1 < countBits b) := by
  have hd : 0 < c.digitBits := Legal_digitBits_pos hc
  have hr := Nat.mod_lt (countBits b) hd
  have h1 : c.digitBits * (used c b - 1) < countBits b := by
    by_contra hh
    have := (used_le_iff hd b (used c b - 1)).mpr
      (by rw [beta_pow_eq]; exact (countBits_le_iff _ _).mp (by omega))
    omega
  have h2 : countBits b ≤ c.digitBits * used c b := by
    rw [countBits_le_iff, ← beta_pow_eq]; exact lt_beta_pow_used hd b
  obtain ⟨u, hu⟩ : ∃ u, used c b = u + 1 := ⟨used c b - 1, by omega⟩
  rw [hu] at h1 h2 h ⊢
  simp only [Nat.add_sub_cancel] at h1 ⊢
  rw [Nat.mul_add, Nat.mul_one] at h2 ⊢
  have hdm := Nat.div_add_mod (countBits b) c.digitBits
  rw [Nat.mul_comm u]
  have hu1 : c.digitBits ≤ c.digitBits * u := Nat.le_mul_of_pos_right _ (by omega)
  -- the quotient is u, or u + 1 when the top digit is full
  have hq : countBits b / c.digitBits = u ∨
      (countBits b / c.digitBits = u + 1 ∧ countBits b % c.digitBits = 0) := by
    have hlo : u ≤ countBits b / c.digitBits :=
      (Nat.le_div_iff_mul_le hd).mpr (by rw [Nat.mul_comm]; omega)
    have hhi : countBits b / c.digitBits ≤ u + 1 := by
      have : countBits b / c.digitBits < u + 2 :=
        (Nat.div_lt_iff_lt_mul hd).mpr (by
          rw [Nat.add_mul, Nat.mul_comm u]; omega)
      omega
    rcases Nat.lt_or_ge (countBits b / c.digitBits) (u + 1) with hlt | hge
    · left; omega
    · right
      have he : countBits b / c.digitBits = u + 1 := by omega
      rw [he, Nat.mul_add, Nat.mul_one] at hdm
      exact ⟨he, by omega⟩
  rcases hq with hq | ⟨hq, hz⟩
  · rw [hq] at hdm
    have : countBits b % c.digitBits ≠ 0 := by intro hz; omega
    omega
  · rw [hq, Nat.mul_add, Nat.mul_one] at hdm
    omega

/-- R115: the radix residue, for every `b >= 2` that is no multi-digit power of two. -/
theorem montNorm_eq_mod (hc : c.Legal) (b : Nat) (h2 : 2 ≤ b)
    (hp : ∀ j, c.digitBits ≤ j → b ≠ 2 ^ j) : montNorm c b = c.beta ^ used c b % b := by
  have hd : 0 < c.digitBits := Legal_digitBits_pos hc
  unfold montNorm
  split
  · next hu =>
    obtain ⟨h1, hle, -⟩ := montNorm_exponents hc b hu
    dsimp only
    set p := (used c b - 1) * c.digitBits + countBits b % c.digitBits - 1
    have hlt : 2 ^ p < b := by
      have ha : 2 ^ p ≤ b := (Nat.pow_le_pow_right (by decide) hle).trans
        (two_pow_countBits_pred_le b (by omega))
      rcases Nat.lt_or_eq_of_le ha with h | h
      · exact h
      · refine absurd h.symm (hp p ?_)
        -- a multi-digit `b = 2^p` has at least `DB + 1` bits
        have hb : c.beta ≤ b := by
          have := beta_pow_used_pred_le hd b (by omega)
          exact (Nat.le_self_pow (by omega) _).trans this
        rw [Config.beta, ← h] at hb
        exact (Nat.pow_le_pow_iff_right (by decide)).mp hb
    rw [repeatN_doubleMod b _ _ hlt, ← Nat.pow_add, Nat.add_comm, h1, beta_pow_eq]
  · next hu =>
    have h1 : used c b = 1 := by
      have := used_pos hd b (by omega); omega
    rw [repeatN_doubleMod b 1 _ (by omega), h1, Nat.mul_one, Nat.pow_one, Config.beta]

/-- R115: for every odd `b >= 3`, the radix residue. -/
theorem montNorm_odd (hc : c.Legal) (b : Nat) (hb : b % 2 = 1) (h1 : b ≠ 1) :
    montNorm c b = c.beta ^ used c b % b := by
  have hd := Legal_digitBits_pos hc
  refine montNorm_eq_mod hc b (by omega) fun j hj e => ?_
  obtain ⟨i, rfl⟩ : ∃ i, j = i + 1 := ⟨j - 1, by omega⟩
  rw [e, Nat.pow_succ, Nat.mul_mod_left] at hb
  omega

theorem used_two_pow (hc : c.Legal) (j : Nat) : used c (2 ^ j) = j / c.digitBits + 1 := by
  have hd : 0 < c.digitBits := Legal_digitBits_pos hc
  rw [used_eq_iff hd _ _ (Nat.succ_pos _), beta_pow_eq, beta_pow_eq,
    Nat.pow_le_pow_iff_right (by decide), Nat.pow_lt_pow_iff_right (by decide)]
  have h1 := Nat.div_add_mod j c.digitBits
  have h2 := Nat.mod_lt j hd
  rw [Nat.succ_eq_add_one, Nat.add_sub_cancel, Nat.mul_add]
  omega

theorem countBits_two_pow (j : Nat) : countBits (2 ^ j) = j + 1 := by
  simp [countBits, Nat.log2_two_pow]

/-- R113, R115: a multi-digit power of two whose top digit is not full gives itself. -/
theorem montNorm_two_pow (hc : c.Legal) (j : Nat) (hj : c.digitBits ≤ j)
    (hf : (j + 1) % c.digitBits ≠ 0) : montNorm c (2 ^ j) = 2 ^ j := by
  have hd : 0 < c.digitBits := Legal_digitBits_pos hc
  have hq : 1 ≤ j / c.digitBits := (Nat.one_le_div_iff hd).mpr hj
  unfold montNorm
  rw [used_two_pow hc, countBits_two_pow, if_pos (by omega)]
  dsimp only
  have hm : (j + 1) % c.digitBits = j % c.digitBits + 1 := by
    have := Nat.mod_lt j hd
    rw [← Nat.mod_add_mod]
    rcases Nat.lt_or_eq_of_le this with h | h
    · exact Nat.mod_eq_of_lt h
    · exact absurd (by rw [← Nat.mod_add_mod]; rw [← Nat.succ_eq_add_one, h, Nat.mod_self]) hf
  have h1 := Nat.div_add_mod' j c.digitBits
  rw [hm, show (j / c.digitBits + 1 - 1) * c.digitBits + (j % c.digitBits + 1) - 1 = j by
    rw [Nat.add_sub_cancel]; omega, repeatN_doubleMod_fixed]

/-- R113: a multi-digit power of two whose top digit is full gives 0 (log 17). -/
theorem montNorm_two_pow_full (hc : c.Legal) (j : Nat) (hj : c.digitBits ≤ j)
    (hf : (j + 1) % c.digitBits = 0) : montNorm c (2 ^ j) = 0 := by
  have hd : 0 < c.digitBits := Legal_digitBits_pos hc
  have hq : 1 ≤ j / c.digitBits := (Nat.one_le_div_iff hd).mpr hj
  have h1 := Nat.div_add_mod' j c.digitBits
  have h2 := Nat.mod_lt j hd
  have hm : j % c.digitBits = c.digitBits - 1 := by
    rw [← Nat.mod_add_mod] at hf
    by_contra hh
    rw [Nat.mod_eq_of_lt (by omega)] at hf
    omega
  unfold montNorm
  rw [used_two_pow hc, countBits_two_pow, if_pos (by omega)]
  dsimp only
  rw [hf]
  have hp : 1 ≤ j / c.digitBits * c.digitBits := Nat.mul_pos hq hd
  rw [repeatN_doubleMod _ _ _ (Nat.pow_lt_pow_right (by decide) (by
    rw [Nat.add_sub_cancel]; omega)), ← Nat.pow_add]
  rw [show c.digitBits - 0 + 1 + ((j / c.digitBits + 1 - 1) * c.digitBits + 0 - 1) = j + 1 by
    rw [Nat.add_sub_cancel]; omega, Nat.pow_succ, Nat.mul_mod_right]

theorem montNorm_one (c : Config) (hc : c.Legal) : montNorm c 1 = 1 := by
  unfold montNorm
  have := used_two_pow hc 0
  have hd := Legal_digitBits_pos hc
  rw [Nat.pow_zero, Nat.zero_div] at this
  rw [this, if_neg (by decide), repeatN_doubleMod_fixed]

theorem montNorm_zero (c : Config) : montNorm c 0 = c.beta := by
  unfold montNorm
  rw [used_zero, if_neg (by decide), repeatN_doubleMod_zero, Nat.mul_one, Config.beta]

/-! ### Reduction (R116, R121, R122) -/

/-- Each outer iteration adds a multiple of `n`, in all less than `n * β^k` (R116). -/
theorem montRounds_eq (c : Config) (n rho k t : Nat) :
    ∃ m, m < c.beta ^ k ∧ montRounds c n rho k t = t + m * n := by
  induction k with
  | zero => exact ⟨0, by simp, by simp [montRounds]⟩
  | succ k ih =>
    obtain ⟨m, hm, e⟩ := ih
    have hmu := Nat.mod_lt (digit c (montRounds c n rho k t) k * rho) (beta_pos c)
    refine ⟨m + digit c (montRounds c n rho k t) k * rho % c.beta * c.beta ^ k, ?_, ?_⟩
    · have h2 := Nat.mul_le_mul_right (c.beta ^ k) hmu
      rw [Nat.succ_mul] at h2
      rw [Nat.pow_succ, Nat.mul_comm _ c.beta]
      omega
    · simp only [montRounds]
      rw [Nat.add_mul, ← Nat.add_assoc, ← e, Nat.mul_right_comm]

/-- With `(ρ * n0 + 1) mod β = 0`, iteration `ix` clears digit `ix` (R116). -/
theorem montRounds_dvd (c : Config) (n rho : Nat) (h : (rho * digit c n 0 + 1) % c.beta = 0)
    (k t : Nat) : c.beta ^ k ∣ montRounds c n rho k t := by
  induction k with
  | zero => simp
  | succ k ih =>
    obtain ⟨u, hu⟩ := ih
    simp only [montRounds]
    rw [digit_zero_index] at h
    have hdig : digit c (montRounds c n rho k t) k = u % c.beta := by
      rw [digit, hu, Nat.mul_div_cancel_left _ (Nat.pow_pos (beta_pos c))]
    rw [hdig, hu, Nat.pow_succ, show c.beta ^ k * u + u % c.beta * rho % c.beta * n * c.beta ^ k =
      c.beta ^ k * (u + u % c.beta * rho % c.beta * n) by ring]
    refine Nat.mul_dvd_mul_left _ (Nat.dvd_of_mod_eq_zero ?_)
    have : (u + u % c.beta * rho % c.beta * n) ≡ u * (rho * (n % c.beta) + 1) [MOD c.beta] := by
      calc u + u % c.beta * rho % c.beta * n
          ≡ u + u * rho * n [MOD c.beta] :=
            Nat.ModEq.add_left _ (Nat.ModEq.mul_right _ ((Nat.mod_modEq _ _).trans
              (Nat.ModEq.mul_right _ (Nat.mod_modEq _ _))))
        _ ≡ u + u * rho * (n % c.beta) [MOD c.beta] :=
            Nat.ModEq.add_left _ (Nat.ModEq.mul_left _ (Nat.mod_modEq _ _).symm)
        _ = u * (rho * (n % c.beta) + 1) := by ring
    rw [this, Nat.mul_mod, h, Nat.mul_zero, Nat.zero_mod]

/-- R121: under the precondition, the reduced value is below `n` and, times `β^k`, congruent to `x`. -/
theorem montReduceValue_spec (hc : c.Legal) (x n rho : Nat)
    (h : (rho * digit c n 0 + 1) % c.beta = 0) (hx : x < n * c.beta ^ used c n) :
    montReduceValue c x n rho < n ∧
    montReduceValue c x n rho * c.beta ^ used c n % n = x % n := by
  have hd := Legal_digitBits_pos hc
  have hP : 0 < c.beta ^ used c n := Nat.pow_pos (beta_pos c)
  have hxlt : x < c.beta ^ (2 * used c n + 1) := by
    calc x < n * c.beta ^ used c n := hx
      _ ≤ c.beta ^ used c n * c.beta ^ used c n := Nat.mul_le_mul_right _ (lt_beta_pow_used hd n).le
      _ = c.beta ^ (2 * used c n) := by rw [← Nat.pow_add, Nat.two_mul]
      _ ≤ c.beta ^ (2 * used c n + 1) := Nat.pow_le_pow_right (beta_pos c) (by omega)
  unfold montReduceValue
  dsimp only
  rw [Nat.mod_eq_of_lt hxlt]
  obtain ⟨m, hm, e⟩ := montRounds_eq c n rho (used c n) x
  obtain ⟨q, hq⟩ := montRounds_dvd c n rho h (used c n) x
  rw [hq, Nat.mul_div_cancel_left _ hP]
  rw [e] at hq
  have hq2 : q < 2 * n := by
    have : c.beta ^ used c n * q < c.beta ^ used c n * (2 * n) := by
      have h1 : m * n ≤ c.beta ^ used c n * n := Nat.mul_le_mul_right n hm.le
      rw [← hq, Nat.two_mul, Nat.mul_add]
      rw [Nat.mul_comm n] at hx
      omega
    exact Nat.lt_of_mul_lt_mul_left this
  have hmod : q * c.beta ^ used c n % n = x % n := by
    rw [Nat.mul_comm, ← hq, Nat.add_mul_mod_self_right]
  split
  · next hge =>
    refine ⟨by omega, ?_⟩
    rw [← hmod, Nat.sub_mul]
    exact (Nat.ModEq.symm ((Nat.modEq_iff_dvd' (Nat.sub_le _ _)).mpr (by
      rw [Nat.sub_sub_self (Nat.mul_le_mul_right _ hge)]; exact Nat.dvd_mul_right _ _))).symm
  · exact ⟨by omega, hmod⟩

/-- R122: in or out of the precondition the value is below `β^(k+1) + n`. -/
theorem montReduceValue_lt (hc : c.Legal) (x n rho : Nat) :
    montReduceValue c x n rho < c.beta ^ (used c n + 1) + n := by
  have hd := Legal_digitBits_pos hc
  have hP : 0 < c.beta ^ used c n := Nat.pow_pos (beta_pos c)
  unfold montReduceValue
  dsimp only
  obtain ⟨m, hm, e⟩ := montRounds_eq c n rho (used c n) (x % c.beta ^ (2 * used c n + 1))
  have hx : x % c.beta ^ (2 * used c n + 1) < c.beta ^ (2 * used c n + 1) :=
    Nat.mod_lt _ (Nat.pow_pos (beta_pos c))
  have hlt : montRounds c n rho (used c n) (x % c.beta ^ (2 * used c n + 1)) / c.beta ^ used c n <
      c.beta ^ (used c n + 1) + n := by
    rw [Nat.div_lt_iff_lt_mul hP, e, Nat.add_mul, ← Nat.pow_add,
      show used c n + 1 + used c n = 2 * used c n + 1 by omega, Nat.mul_comm n]
    have := Nat.mul_le_mul_right n hm.le
    omega
  split <;> omega

/-- R122: only the low `2k + 1` digits of `x` count. -/
theorem montReduceValue_mod (c : Config) (x n rho : Nat) :
    montReduceValue c x n rho = montReduceValue c (x % c.beta ^ (2 * used c n + 1)) n rho := by
  unfold montReduceValue
  dsimp only
  rw [Nat.mod_mod]

theorem coprime_beta_pow (c : Config) (n k : Nat) (h : n % 2 = 1) : Nat.Coprime (c.beta ^ k) n := by
  rw [beta_pow_eq]
  exact Nat.Coprime.pow_left _ (Nat.prime_two.coprime_iff_not_dvd.mpr (by omega))

/-- R121: a reduced value is decided by its congruence, since `β` is a unit modulo an odd `n`. -/
theorem montReduceValue_unique (hc : c.Legal) (x y n rho : Nat) (hn : n % 2 = 1)
    (h : (rho * digit c n 0 + 1) % c.beta = 0) (hx : x < n * c.beta ^ used c n)
    (hy : x % n = y * c.beta ^ used c n % n) : montReduceValue c x n rho = y % n := by
  obtain ⟨h1, h2⟩ := montReduceValue_spec hc x n rho h hx
  have h3 : montReduceValue c x n rho ≡ y [MOD n] :=
    Nat.ModEq.cancel_right_of_coprime (by
      rw [Nat.gcd_comm]; exact coprime_beta_pow c n _ hn) (h2.trans hy)
  exact (Nat.mod_eq_of_lt h1).symm.trans h3

end Sys2Proof.Machine
end

