-- ==== Sys2Proof/Laws/Exponentiation.lean ====
section
/-! SUPPORT. What the sliding-window controller computes (44_exponentiation.md R152 to R164), said once for
every relation between values and exponents that the reduction respects. -/

namespace Sys2Proof.Machine

variable {c : Config}

/-- `R v e` says that the value `v` stands for the exponent `e`; a reduced product stands for the sum. -/
def Tracks (red : Nat → Nat) (R : Nat → Nat → Prop) : Prop :=
  ∀ v u e f, R v e → R u f → R (red (v * u)) (e + f)

section
variable {red : Nat → Nat} {R : Nat → Nat → Prop} (hR : Tracks red R)
include hR

theorem squareRed_tracks (v e : Nat) (h : R v e) : R (squareRed red v) (2 * e) := by
  rw [Nat.two_mul]; exact hR v v e e h h

theorem squares_track (n v e : Nat) (h : R v e) : R (repeatN (squareRed red) n v) (2 ^ n * e) := by
  induction n generalizing v e with
  | zero => simpa using h
  | succ n ih =>
    rw [repeatN_succ, Nat.pow_succ, Nat.mul_assoc]
    exact ih _ _ (squareRed_tracks hR v e h)

/-! ### The power table (R153) -/

theorem powersFrom_tracks (m1 : Nat) (h1 : R m1 1) (n v e i : Nat) (h : R v e) (hi : i ≤ n) :
    R ((powersFrom red m1 n v).getD i 0) (e + i) := by
  induction n generalizing v e i with
  | zero => obtain rfl : i = 0 := by omega
            simpa [powersFrom] using h
  | succ n ih =>
    cases i with
    | zero => simpa [powersFrom] using h
    | succ i =>
      rw [powersFrom, List.getD_cons_succ, show e + (i + 1) = e + 1 + i by omega]
      exact ih _ _ _ (hR v m1 e 1 h h1) (by omega)

/-- R153: every populated slot `M[j]` stands for `j`. -/
theorem tableEntry_tracks (m1 w j : Nat) (h1 : R m1 1) (hw : 1 ≤ w) (hlo : 2 ^ (w - 1) ≤ j)
    (hhi : j < 2 ^ w) : R (tableEntry (powerTable red m1 w) w j) j := by
  have h2 : 2 ^ w = 2 * 2 ^ (w - 1) := by rw [← Nat.pow_succ']; congr 1; omega
  have hb := squares_track hR (w - 1) m1 1 h1
  rw [Nat.mul_one] at hb
  have := powersFrom_tracks hR m1 h1 (2 ^ (w - 1) - 1) _ _ (j - 2 ^ (w - 1)) hb (by omega)
  rw [show 2 ^ (w - 1) + (j - 2 ^ (w - 1)) = j by omega] at this
  exact this

end

/-! ### The scanner (R154) -/

/-- What the scanner's variables mean after the exponent's leading bits, of value `e`: `res` stands for
those before the window, and the window holds the rest, which start with a 1 bit. -/
structure ScanInv (R : Nat → Nat → Prop) (w : Nat) (st : Scan) (e : Nat) : Prop where
  leading : st.mode = .leading → st.bitcpy = 0 ∧ st.bitbuf = 0 ∧ e = 0 ∧ R st.res 0
  squaring : st.mode = .squaring → st.bitcpy = 0 ∧ st.bitbuf = 0 ∧ R st.res e
  filling : st.mode = .filling → 0 < st.bitcpy ∧ st.bitcpy < w ∧ ∃ e0 v,
    e = e0 * 2 ^ st.bitcpy + v ∧ st.bitbuf = v * 2 ^ (w - st.bitcpy) ∧ 2 ^ (st.bitcpy - 1) ≤ v ∧
    v < 2 ^ st.bitcpy ∧ R st.res e0

section
variable {red : Nat → Nat} {R : Nat → Nat → Prop} (hR : Tracks red R) {w m1 : Nat} (hw : 1 ≤ w)
  (h1 : R m1 1)
include hR hw h1

/-- A bit that enters a window of value `v` keeps the meaning. -/
theorem pushBit_inv (st : Scan) (e0 v y : Nat) (hb : st.bitbuf = v * 2 ^ (w - st.bitcpy))
    (hc : st.bitcpy < w) (hlo : st.bitcpy = 0 → v = 0 ∧ y = 1)
    (hlo' : 0 < st.bitcpy → 2 ^ (st.bitcpy - 1) ≤ v) (hhi : v < 2 ^ st.bitcpy) (hy : y ≤ 1)
    (hr : R st.res e0) :
    ScanInv R w (pushBit red w (powerTable red m1 w) st y)
      (2 * (e0 * 2 ^ st.bitcpy + v) + y) := by
  obtain ⟨mode, bitbuf, bitcpy, res⟩ := st
  dsimp only at *
  have hbb : bitbuf + y * 2 ^ (w - (bitcpy + 1)) = (2 * v + y) * 2 ^ (w - (bitcpy + 1)) := by
    rw [hb, show w - bitcpy = w - (bitcpy + 1) + 1 by omega, Nat.pow_succ]; ring
  have hlow : 2 ^ bitcpy ≤ 2 * v + y := by
    rcases Nat.eq_zero_or_pos bitcpy with h | h
    · obtain ⟨rfl, rfl⟩ := hlo h; subst h; decide
    · have h2 := hlo' h
      have : 2 ^ bitcpy = 2 * 2 ^ (bitcpy - 1) := by rw [← Nat.pow_succ']; congr 1; omega
      omega
  have hhigh : 2 * v + y < 2 ^ (bitcpy + 1) := by rw [Nat.pow_succ]; omega
  unfold pushBit
  dsimp only
  rw [hbb]
  split
  · next he =>
    unfold closeWindow
    dsimp only
    refine ⟨fun h => by simp at h, fun _ => ⟨rfl, rfl, ?_⟩, fun h => by simp at h⟩
    rw [he, Nat.sub_self, Nat.pow_zero, Nat.mul_one]
    have ha := squares_track hR w res e0 hr
    have hm := tableEntry_tracks hR m1 w (2 * v + y) h1 hw (by rw [← he]; simpa using hlow)
      (by rw [← he]; exact hhigh)
    have := hR _ _ _ _ ha hm
    rw [← he] at this ⊢
    rw [show 2 * (e0 * 2 ^ bitcpy + v) + y = 2 ^ (bitcpy + 1) * e0 + (2 * v + y) by
      rw [Nat.pow_succ]; ring]
    exact this
  · next he =>
    refine ⟨fun h => by simp at h, fun h => by simp at h, fun _ => ⟨by simp, by simp; omega, ?_⟩⟩
    refine ⟨e0, 2 * v + y, ?_, rfl, by simpa using hlow, hhigh, hr⟩
    rw [Nat.pow_succ]; ring

/-- One exponent bit (R154). -/
theorem scanBit_inv (st : Scan) (e y : Nat) (hy : y ≤ 1) (h : ScanInv R w st e) :
    ScanInv R w (scanBit red w (powerTable red m1 w) st y) (2 * e + y) := by
  unfold scanBit
  split
  · next hm =>
    obtain ⟨hc, hb, rfl, hr⟩ := h.leading hm
    split
    · next hy0 => subst hy0; exact h
    · next hy0 =>
      have := pushBit_inv hR hw h1 st 0 0 y (by simp [hb]) (by omega) (by omega) (by omega)
        (by simp [hc]) hy hr
      simpa using this
  · next hm =>
    obtain ⟨hc, hb, hr⟩ := h.squaring hm
    split
    · next hy0 =>
      subst hy0
      refine ⟨fun h => by simp [hm] at h, fun _ => ⟨hc, hb, ?_⟩, fun h => by simp [hm] at h⟩
      exact squareRed_tracks hR _ _ hr
    · next hy0 =>
      have := pushBit_inv hR hw h1 st e 0 y (by simp [hb]) (by omega) (by omega) (by omega)
        (by simp [hc]) hy hr
      simpa [hc] using this
  · next hm =>
    obtain ⟨hp, hcw, e0, v, rfl, hb, hlo, hhi, hr⟩ := h.filling hm
    exact pushBit_inv hR hw h1 st e0 v y hb hcw (by omega) (fun _ => hlo) hhi hy hr

/-- The low `n` bits of a digit. -/
theorem scanDigit_inv (v n : Nat) (st : Scan) (e : Nat) (h : ScanInv R w st e) :
    ScanInv R w (scanDigit red w (powerTable red m1 w) v n st) (e * 2 ^ n + v % 2 ^ n) := by
  induction n generalizing st e with
  | zero => simpa [scanDigit, Nat.mod_one] using h
  | succ n ih =>
    have := ih _ _ (scanBit_inv hR hw h1 st e (v / 2 ^ n % 2) (by omega) h)
    rw [scanDigit]
    rw [show e * 2 ^ (n + 1) + v % 2 ^ (n + 1) = (2 * e + v / 2 ^ n % 2) * 2 ^ n + v % 2 ^ n by
      rw [Nat.pow_succ, Nat.mod_mul]; ring]
    exact this

/-- The digits below `n`, most significant first. -/
theorem scanDigits_inv (c : Config) (x n : Nat) (st : Scan) (e : Nat) (h : ScanInv R w st e) :
    ScanInv R w (scanDigits c red w (powerTable red m1 w) x n st)
      (e * c.beta ^ n + x % c.beta ^ n) := by
  induction n generalizing st e with
  | zero => simpa [scanDigits, Nat.mod_one] using h
  | succ n ih =>
    have h2 := scanDigit_inv hR hw h1 (digit c x n) c.digitBits st e h
    have := ih _ _ h2
    rw [scanDigits]
    have hlt : digit c x n % 2 ^ c.digitBits = digit c x n := Nat.mod_eq_of_lt (digit_lt c x n)
    rw [hlt] at this
    rw [show e * c.beta ^ (n + 1) + x % c.beta ^ (n + 1) =
        (e * 2 ^ c.digitBits + digit c x n) * c.beta ^ n + x % c.beta ^ n by
      rw [digit_mul_add_mod, Nat.pow_succ, ← Config.beta]; ring]
    exact this

/-! ### The tail and the whole skeleton (R155) -/

omit hw in
/-- The residual bits of a window, one by one. -/
theorem tailBits_track (st : Scan) (e0 v : Nat) (hcw : st.bitcpy < w)
    (hb : st.bitbuf = v * 2 ^ (w - st.bitcpy)) (hr : R st.res e0) (i : Nat)
    (hi : i ≤ st.bitcpy) :
    (repeatN (tailBit red w m1) i st).bitbuf = 2 ^ i * st.bitbuf ∧
    R (repeatN (tailBit red w m1) i st).res
      (e0 * 2 ^ i + v / 2 ^ (st.bitcpy - i) % 2 ^ i) := by
  induction i with
  | zero => simpa [Nat.mod_one] using hr
  | succ i ih =>
    obtain ⟨hbi, hri⟩ := ih (by omega)
    rw [repeatN_succ']
    generalize repeatN (tailBit red w m1) i st = t at *
    have hbuf : 2 * t.bitbuf = 2 ^ (i + 1) * st.bitbuf := by rw [hbi, Nat.pow_succ]; ring
    have hbit : 2 * t.bitbuf / 2 ^ w % 2 = v / 2 ^ (st.bitcpy - (i + 1)) % 2 := by
      rw [hbuf, hb, show 2 ^ (i + 1) * (v * 2 ^ (w - st.bitcpy)) = v * 2 ^ (w - st.bitcpy + (i + 1)) by
        rw [Nat.pow_add]; ring]
      have : 2 ^ w = 2 ^ (st.bitcpy - (i + 1)) * 2 ^ (w - st.bitcpy + (i + 1)) := by
        rw [← Nat.pow_add]; congr 1; omega
      rw [this, Nat.mul_div_mul_right _ _ (Nat.two_pow_pos _)]
    have hval : v / 2 ^ (st.bitcpy - (i + 1)) % 2 ^ (i + 1) =
        2 * (v / 2 ^ (st.bitcpy - i) % 2 ^ i) + v / 2 ^ (st.bitcpy - (i + 1)) % 2 := by
      rw [Nat.pow_succ', Nat.mod_mul, Nat.div_div_eq_div_mul, ← Nat.pow_succ,
        show (st.bitcpy - (i + 1)).succ = st.bitcpy - i by omega]
      omega
    have hsq := squareRed_tracks hR _ _ hri
    refine ⟨by rw [← hbuf]; rfl, ?_⟩
    simp only [tailBit]
    rw [hbit, hval]
    split
    · next h =>
      rw [h]
      have := hR _ _ _ _ hsq h1
      rw [show e0 * 2 ^ (i + 1) + (2 * (v / 2 ^ (st.bitcpy - i) % 2 ^ i) + 1) =
        2 * (e0 * 2 ^ i + v / 2 ^ (st.bitcpy - i) % 2 ^ i) + 1 by rw [Nat.pow_succ]; ring]
      exact this
    · next h =>
      have h0 : v / 2 ^ (st.bitcpy - (i + 1)) % 2 = 0 := by omega
      rw [h0, show e0 * 2 ^ (i + 1) + (2 * (v / 2 ^ (st.bitcpy - i) % 2 ^ i) + 0) =
        2 * (e0 * 2 ^ i + v / 2 ^ (st.bitcpy - i) % 2 ^ i) by rw [Nat.pow_succ]; ring]
      exact hsq

omit hw in
theorem scanTail_tracks (st : Scan) (e : Nat) (h : ScanInv R w st e) :
    R (scanTail red w m1 st) e := by
  unfold scanTail
  split
  · next hm =>
    obtain ⟨-, hcw, e0, v, rfl, hb, -, hhi, hr⟩ := h.filling hm.1
    have := (tailBits_track hR h1 st e0 v hcw hb hr st.bitcpy le_rfl).2
    rw [Nat.sub_self, Nat.pow_zero, Nat.div_one, Nat.mod_eq_of_lt hhi] at this
    exact this
  · next hm =>
    cases hmode : st.mode with
    | leading => obtain ⟨-, -, rfl, hr⟩ := h.leading hmode; exact hr
    | squaring => exact (h.squaring hmode).2.2
    | filling => exact absurd ⟨hmode, (h.filling hmode).1⟩ hm

/-- R155: the skeleton's result stands for the exponent. -/
theorem expCore_tracks (hd : 0 < c.digitBits) (x res : Nat) (hr : R res 0) :
    R (expCore c m1 x res red w) x := by
  have h0 : ScanInv R w { mode := .leading, bitbuf := 0, bitcpy := 0, res := res } 0 :=
    ⟨fun _ => ⟨rfl, rfl, rfl, hr⟩, fun h => by simp at h, fun h => by simp at h⟩
  have := scanTail_tracks hR h1 _ _ (scanDigits_inv hR hw h1 c x (used c x) _ _ h0)
  rw [Nat.zero_mul, Nat.zero_add, Nat.mod_eq_of_lt (lt_beta_pow_used hd x)] at this
  exact this

end

/-- R155: with exponent 0 nothing is scanned. -/
theorem expCore_zero (c : Config) (m1 res : Nat) (red : Nat → Nat) (w : Nat) :
    expCore c m1 0 res red w = res := by
  simp [expCore, scanDigits, scanTail]

/-! ### The window size (R152) -/

theorem winSizeUncapped_bounds (b : Nat) : 1 ≤ winSizeUncapped b ∧ winSizeUncapped b ≤ 8 := by
  unfold winSizeUncapped
  repeat' split
  all_goals decide

theorem winSize_bounds (c : Config) (b : Nat) : 1 ≤ winSize c b ∧ winSize c b ≤ 8 := by
  have := winSizeUncapped_bounds b
  unfold winSize
  split <;> omega

/-! ### The bindings (R163, R164) -/

/-- A reduction that is the remainder on products of reduced values gives the power (R163), but for the
unreduced 1 of `P = 1`, exponent 0 (R164). -/
theorem expCore_exact (hd : 0 < c.digitBits) (red : Nat → Nat) (g x p w : Nat) (hp : p ≠ 0) (hw : 1 ≤ w)
    (hred : ∀ v, v < p * p ∨ p = 1 → red v = v % p) :
    expCore c (g % p) x 1 red w = if p = 1 ∧ x = 0 then 1 else g ^ x % p := by
  by_cases h1 : p = 1
  · subst h1
    split
    · next h => rw [h.2, expCore_zero]
    · next h =>
      have hx : x ≠ 0 := by simpa using h
      have := expCore_tracks (R := fun v e => e = 0 ∨ v = 0) (red := red) (m1 := g % 1)
        (fun v u e f _ _ => .inr (by rw [hred _ (.inr rfl), Nat.mod_one])) hw (.inr (Nat.mod_one g))
        hd x 1 (.inl rfl)
      rw [this.resolve_left hx, Nat.mod_one]
  · rw [if_neg (fun h => h1 h.1)]
    refine expCore_tracks (R := fun v e => v = g ^ e % p) (red := red) (m1 := g % p) ?_ hw ?_ hd x 1 ?_
    · rintro v u e f rfl rfl
      rw [hred _ (.inl (Nat.mul_lt_mul'' (Nat.mod_lt _ (by omega)) (Nat.mod_lt _ (by omega)))),
        ← Nat.mul_mod, ← Nat.pow_add]
    · rw [Nat.pow_one]
    · rw [Nat.pow_zero, Nat.mod_eq_of_lt (by omega)]

/-- With any reduction that ends below `P >= 2` the result is below `P` (R163). -/
theorem expCore_lt (hd : 0 < c.digitBits) (red : Nat → Nat) (g x p w : Nat) (hp : 2 ≤ p) (hw : 1 ≤ w)
    (hred : ∀ v, red v < p) : expCore c (g % p) x 1 red w < p :=
  expCore_tracks (R := fun v _ => v < p) (red := red) (m1 := g % p) (fun _ _ _ _ _ _ => hred _) hw
    (Nat.mod_lt _ (by omega)) hd x 1 (by omega)

theorem montNorm_le (hc : c.Legal) (p : Nat) (hp : p % 2 = 1) : montNorm c p ≤ p := by
  by_cases h1 : p = 1
  · subst h1; rw [montNorm_one c hc]
  · rw [montNorm_odd hc p hp h1]; exact (Nat.mod_lt _ (by omega)).le

/-- Montgomery form, with the fixup: the power, for every odd `P` (R163, R164). -/
theorem expMont_exact (hc : c.Legal) (g x p rho w : Nat) (hp : p % 2 = 1) (hw : 1 ≤ w)
    (hrho : (rho * digit c p 0 + 1) % c.beta = 0) :
    montReduceValue c (expCore c (g * montNorm c p % p) x (montNorm c p)
      (fun v => montReduceValue c v p rho) w) p rho = g ^ x % p := by
  have hd := Legal_digitBits_pos hc
  have hpB := lt_beta_pow_used hd p
  have hnorm : montNorm c p % p = c.beta ^ used c p % p := by
    by_cases h1 : p = 1
    · subst h1; rw [Nat.mod_one, Nat.mod_one]
    · rw [montNorm_odd hc p hp h1, Nat.mod_mod]
  have key := expCore_tracks (c := c)
    (R := fun v e => v ≤ p ∧ v % p = g ^ e * c.beta ^ used c p % p)
    (red := fun v => montReduceValue c v p rho) (m1 := g * montNorm c p % p) ?_ hw ?_ hd x (montNorm c p) ?_
  · obtain ⟨h1, h2⟩ := key
    exact montReduceValue_unique hc _ _ p rho hp hrho
      (lt_of_le_of_lt h1 (by
        calc p = p * 1 := (Nat.mul_one p).symm
          _ < p * c.beta ^ used c p := Nat.mul_lt_mul_of_pos_left
            (Nat.one_lt_pow (by have := used_pos hd p (by omega); omega) (one_lt_beta hc)) (by omega))) h2
  · rintro v u e f ⟨hv, hv'⟩ ⟨hu, hu'⟩
    dsimp only
    have hlt : v * u < p * c.beta ^ used c p := by
      calc v * u ≤ p * p := Nat.mul_le_mul hv hu
        _ < p * c.beta ^ used c p := Nat.mul_lt_mul_of_pos_left hpB (by omega)
    rw [montReduceValue_unique hc (v * u) (g ^ (e + f) * c.beta ^ used c p) p rho hp hrho hlt ?_]
    · exact ⟨(Nat.mod_lt _ (by omega)).le, Nat.mod_mod _ _⟩
    · rw [Nat.mul_mod, hv', hu', ← Nat.mul_mod, Nat.pow_add]
      congr 1; ring
  · refine ⟨(Nat.mod_lt _ (by omega)).le, ?_⟩
    rw [Nat.mod_mod, Nat.pow_one, Nat.mul_mod, hnorm, ← Nat.mul_mod]
  · exact ⟨montNorm_le hc p hp, by rw [hnorm, Nat.pow_zero, Nat.one_mul]⟩

end Sys2Proof.Machine
end

