-- ==== Sys2Proof/Laws/PerInstr.lean ====
section
/-! SUPPORT. The per-instruction family `EncodeOpcode`: the command word of an instruction carries its
opcode in `OPC` and 0 in the reserved bits (30_encoding.md R81, R83, R85). -/

namespace Sys2Proof.Laws.EncodeOpcode

open Sys2Proof

/-- The opcode that 30_encoding.md R83 gives the instruction. -/
def opcode : Instr → Nat
  | .nop => 0x00
  | .montSetup _ _ => 0x01
  | .montNorm _ _ => 0x02
  | .montReduce _ _ _ _ => 0x03
  | .barSetup _ _ => 0x04
  | .barReduce _ _ _ _ => 0x05
  | .drIs2k _ => 0x06
  | .drIs2kL _ => 0x07
  | .drSetup _ _ => 0x08
  | .drSetupL _ _ => 0x09
  | .drReduce _ _ _ _ => 0x0A
  | .drReduceL _ _ _ _ => 0x0B
  | .expmod _ _ _ _ _ => 0x0C
  | .expmodFast _ _ _ _ _ => 0x0D
  | .rmTrials _ => 0x0E

/-- The encoding of `i` has `i`'s opcode in bits [7:0] and 0 in bits [31:28]. -/
def Statement (i : Instr) : Prop :=
  (fieldOpc (encode i)).toNat = opcode i ∧ fieldReserved (encode i) = 0

/-- Every packed word has its opcode and clear reserved bits. -/
theorem packed (opc : Nat) (rd ra rb rc : Reg) (mode : RedMode) (imm : BitVec 32) (h : opc < 2 ^ 8) :
    (fieldOpc (packFields opc rd ra rb rc mode imm)).toNat = opc ∧
    fieldReserved (packFields opc rd ra rb rc mode imm) = 0 :=
  ⟨fieldOpc_packFields _ _ _ _ _ _ _ h, fieldReserved_packFields _ _ _ _ _ _ _ h⟩

theorem nop : Statement .nop :=
  packed 0x00 _ _ _ _ _ _ (by decide)

theorem montSetup (rd ra : Reg) : Statement (.montSetup rd ra) :=
  packed 0x01 _ _ _ _ _ _ (by decide)

theorem montNorm (rd ra : Reg) : Statement (.montNorm rd ra) :=
  packed 0x02 _ _ _ _ _ _ (by decide)

theorem montReduce (rd ra rb rc : Reg) : Statement (.montReduce rd ra rb rc) :=
  packed 0x03 _ _ _ _ _ _ (by decide)

theorem barSetup (rd ra : Reg) : Statement (.barSetup rd ra) :=
  packed 0x04 _ _ _ _ _ _ (by decide)

theorem barReduce (rd ra rb rc : Reg) : Statement (.barReduce rd ra rb rc) :=
  packed 0x05 _ _ _ _ _ _ (by decide)

theorem drIs2k (ra : Reg) : Statement (.drIs2k ra) :=
  packed 0x06 _ _ _ _ _ _ (by decide)

theorem drIs2kL (ra : Reg) : Statement (.drIs2kL ra) :=
  packed 0x07 _ _ _ _ _ _ (by decide)

theorem drSetup (rd ra : Reg) : Statement (.drSetup rd ra) :=
  packed 0x08 _ _ _ _ _ _ (by decide)

theorem drSetupL (rd ra : Reg) : Statement (.drSetupL rd ra) :=
  packed 0x09 _ _ _ _ _ _ (by decide)

theorem drReduce (rd ra rb rc : Reg) : Statement (.drReduce rd ra rb rc) :=
  packed 0x0A _ _ _ _ _ _ (by decide)

theorem drReduceL (rd ra rb rc : Reg) : Statement (.drReduceL rd ra rb rc) :=
  packed 0x0B _ _ _ _ _ _ (by decide)

theorem expmod (rd ra rb rc : Reg) (mode : RedMode) : Statement (.expmod rd ra rb rc mode) :=
  packed 0x0C _ _ _ _ _ _ (by decide)

theorem expmodFast (rd ra rb rc : Reg) (mode : RedMode) : Statement (.expmodFast rd ra rb rc mode) :=
  packed 0x0D _ _ _ _ _ _ (by decide)

theorem rmTrials (imm : BitVec 32) : Statement (.rmTrials imm) :=
  packed 0x0E _ _ _ _ _ _ (by decide)

end Sys2Proof.Laws.EncodeOpcode
end

