-- ==== Sys2Proof/Laws/RabinMiller.lean ====
section
/-! SUPPORT. The rows of the trial-count table (45_rabin_miller.md R170), each by both of its ends. -/

namespace Sys2Proof.Machine

variable (s : Int)

theorem rmTrials_first (h : s ≤ 80) : rmTrials s = -1 := by
  unfold rmTrials; rw [if_pos h]

theorem rmTrials_81 (h : 81 ≤ s) (h2 : s ≤ 95) : rmTrials s = 37 := by
  unfold rmTrials; iterate 1 rw [if_neg (by omega)]
  rw [if_pos h2]

theorem rmTrials_96 (h : 96 ≤ s) (h2 : s ≤ 127) : rmTrials s = 32 := by
  unfold rmTrials; iterate 2 rw [if_neg (by omega)]
  rw [if_pos h2]

theorem rmTrials_128 (h : 128 ≤ s) (h2 : s ≤ 159) : rmTrials s = 40 := by
  unfold rmTrials; iterate 3 rw [if_neg (by omega)]
  rw [if_pos h2]

theorem rmTrials_160 (h : 160 ≤ s) (h2 : s ≤ 255) : rmTrials s = 35 := by
  unfold rmTrials; iterate 4 rw [if_neg (by omega)]
  rw [if_pos h2]

theorem rmTrials_256 (h : 256 ≤ s) (h2 : s ≤ 383) : rmTrials s = 27 := by
  unfold rmTrials; iterate 5 rw [if_neg (by omega)]
  rw [if_pos h2]

theorem rmTrials_384 (h : 384 ≤ s) (h2 : s ≤ 511) : rmTrials s = 16 := by
  unfold rmTrials; iterate 6 rw [if_neg (by omega)]
  rw [if_pos h2]

theorem rmTrials_512 (h : 512 ≤ s) (h2 : s ≤ 767) : rmTrials s = 18 := by
  unfold rmTrials; iterate 7 rw [if_neg (by omega)]
  rw [if_pos h2]

theorem rmTrials_768 (h : 768 ≤ s) (h2 : s ≤ 895) : rmTrials s = 11 := by
  unfold rmTrials; iterate 8 rw [if_neg (by omega)]
  rw [if_pos h2]

theorem rmTrials_896 (h : 896 ≤ s) (h2 : s ≤ 1023) : rmTrials s = 10 := by
  unfold rmTrials; iterate 9 rw [if_neg (by omega)]
  rw [if_pos h2]

theorem rmTrials_1024 (h : 1024 ≤ s) (h2 : s ≤ 1535) : rmTrials s = 12 := by
  unfold rmTrials; iterate 10 rw [if_neg (by omega)]
  rw [if_pos h2]

theorem rmTrials_1536 (h : 1536 ≤ s) (h2 : s ≤ 2047) : rmTrials s = 8 := by
  unfold rmTrials; iterate 11 rw [if_neg (by omega)]
  rw [if_pos h2]

theorem rmTrials_2048 (h : 2048 ≤ s) (h2 : s ≤ 3071) : rmTrials s = 6 := by
  unfold rmTrials; iterate 12 rw [if_neg (by omega)]
  rw [if_pos h2]

theorem rmTrials_3072 (h : 3072 ≤ s) (h2 : s ≤ 4095) : rmTrials s = 4 := by
  unfold rmTrials; iterate 13 rw [if_neg (by omega)]
  rw [if_pos h2]

theorem rmTrials_4096 (h : 4096 ≤ s) (h2 : s ≤ 5119) : rmTrials s = 5 := by
  unfold rmTrials; iterate 14 rw [if_neg (by omega)]
  rw [if_pos h2]

theorem rmTrials_5120 (h : 5120 ≤ s) (h2 : s ≤ 6143) : rmTrials s = 4 := by
  unfold rmTrials; iterate 15 rw [if_neg (by omega)]
  rw [if_pos h2]

theorem rmTrials_6144 (h : 6144 ≤ s) (h2 : s ≤ 8191) : rmTrials s = 4 := by
  unfold rmTrials; iterate 16 rw [if_neg (by omega)]
  rw [if_pos h2]

theorem rmTrials_8192 (h : 8192 ≤ s) (h2 : s ≤ 10239) : rmTrials s = 3 := by
  unfold rmTrials; iterate 17 rw [if_neg (by omega)]
  rw [if_pos h2]

theorem rmTrials_last (h : 10240 ≤ s) : rmTrials s = 2 := by
  unfold rmTrials; iterate 18 rw [if_neg (by omega)]

end Sys2Proof.Machine
end

