-- ==== Sys2Proof/Laws/Step.lean ====
section
/-! SUPPORT. Everything one step can do, said once (20_memory.md R66): no proof about `step` need unfold
it again. -/

namespace Sys2Proof.Machine

/-- The end of the engine step: a completion of some command rule, or of an illegal word (R96, R100). -/
theorem execWord_cases (w : Word) (s : State) :
    (∃ i, decodeWord w = .ok i ∧ execWord w s = .next (s.finish (commandRule i s))) ∨
    (∃ e, decodeWord w = .error e ∧ execWord w s = .next (s.complete .illegalCommand .unused)) := by
  unfold execWord
  cases h : decodeWord w with
  | ok i => exact .inl ⟨i, rfl, exec_eq i s⟩
  | error e => exact .inr ⟨e, rfl, rfl⟩

/-- What choosing who moves does: it takes an access from `hostQ` or an entry from `schedule`, no more. -/
theorem afterChoice_frame (s : State) :
    s.afterChoice = { s with hostQ := s.afterChoice.hostQ, schedule := s.afterChoice.schedule } := by
  unfold State.afterChoice
  repeat' split
  all_goals rfl

/-! ### The fields that choosing who moves leaves alone -/

section
variable (s : State)

@[simp] theorem afterChoice_cfg : s.afterChoice.cfg = s.cfg := by rw [afterChoice_frame s]
@[simp] theorem afterChoice_b : s.afterChoice.b = s.b := by rw [afterChoice_frame s]
@[simp] theorem afterChoice_ie : s.afterChoice.ie = s.ie := by rw [afterChoice_frame s]
@[simp] theorem afterChoice_busy : s.afterChoice.busy = s.busy := by rw [afterChoice_frame s]
@[simp] theorem afterChoice_done : s.afterChoice.done = s.done := by rw [afterChoice_frame s]
@[simp] theorem afterChoice_werr : s.afterChoice.werr = s.werr := by rw [afterChoice_frame s]
@[simp] theorem afterChoice_err : s.afterChoice.err = s.err := by rw [afterChoice_frame s]
@[simp] theorem afterChoice_path : s.afterChoice.path = s.path := by rw [afterChoice_frame s]
@[simp] theorem afterChoice_cmd : s.afterChoice.cmd = s.cmd := by rw [afterChoice_frame s]
@[simp] theorem afterChoice_sres : s.afterChoice.sres = s.sres := by rw [afterChoice_frame s]
@[simp] theorem afterChoice_seq : s.afterChoice.seq = s.seq := by rw [afterChoice_frame s]
@[simp] theorem afterChoice_pend : s.afterChoice.pend = s.pend := by rw [afterChoice_frame s]
@[simp] theorem afterChoice_responses : s.afterChoice.responses = s.responses := by rw [afterChoice_frame s]
@[simp] theorem afterChoice_reg (r : Reg) : s.afterChoice.reg r = s.reg r := by
  rw [afterChoice_frame s]; rfl

end

theorem step_of_legal (s : State) (h : s.cfg.Legal) : step s = machineMove s := by
  simp only [step, legalMove, if_pos h]

theorem step_of_not_legal (s : State) (h : ¬ s.cfg.Legal) :
    step s = .refused .illegalConfiguration := by
  simp only [step, legalMove, if_neg h]

/-- Everything a step can do in a legal configuration. -/
theorem step_cases (s : State) (h : s.cfg.Legal) :
    (s.nextMove = .idle ∧ step s = .next s) ∨
    (∃ w i, s.nextMove = .engine w ∧ decodeWord w = .ok i ∧
      step s = .next (s.afterChoice.finish (commandRule i s.afterChoice))) ∨
    (∃ w e, s.nextMove = .engine w ∧ decodeWord w = .error e ∧
      step s = .next (s.afterChoice.complete .illegalCommand .unused)) ∨
    (∃ req, s.nextMove = .host req ∧ step s = .next (s.afterChoice.hostMove req)) := by
  rw [step_of_legal s h, machineMove]
  cases hm : s.nextMove with
  | idle => exact .inl ⟨rfl, rfl⟩
  | engine w =>
    rcases execWord_cases w s.afterChoice with ⟨i, hd, e⟩ | ⟨x, hd, e⟩
    · exact .inr (.inl ⟨w, i, rfl, hd, e⟩)
    · exact .inr (.inr (.inl ⟨w, x, rfl, hd, e⟩))
  | host req => exact .inr (.inr (.inr ⟨req, rfl, rfl⟩))

/-- When the engine moves, a word is pending. -/
theorem nextMove_engine (s : State) (w : Word) (h : s.nextMove = .engine w) : s.pend = some w := by
  unfold State.nextMove at h
  split at h <;> try cases h
  · assumption
  · split at h <;> cases h; assumption

/-- When the engine moves, no access leaves `hostQ`. -/
theorem afterChoice_hostQ_of_engine (s : State) (w : Word) (h : s.nextMove = .engine w) :
    s.afterChoice.hostQ = s.hostQ := by
  unfold State.nextMove at h
  unfold State.afterChoice
  split at h <;> simp_all
  split at h <;> simp_all

/-- When the outside world moves, its oldest request leaves `hostQ`, and while a command is pending an
entry leaves `schedule`. -/
theorem nextMove_host (s : State) (req : BusReq) (h : s.nextMove = .host req) :
    ∃ rest, s.hostQ = req :: rest ∧ s.afterChoice.hostQ = rest ∧
      (s.pend = none ∨ s.schedule = .host :: s.afterChoice.schedule) := by
  unfold State.nextMove at h
  unfold State.afterChoice
  split at h <;> try cases h
  · simp_all
  · split at h <;> cases h
    rename_i hs hq
    cases hsch : s.schedule with
    | nil => rw [hsch] at hs; cases hs
    | cons a l => rw [hsch, List.head?_cons] at hs; cases hs; simp_all

/-- The next state of an engine step: a completion of the command's rule, or of an illegal word. -/
theorem step_engine {s t : State} {w : Word} (h : s.cfg.Legal) (hm : s.nextMove = .engine w)
    (ht : step s = .next t) :
    (∃ i, decodeWord w = .ok i ∧ t = s.afterChoice.finish (commandRule i s.afterChoice)) ∨
    (∃ e, decodeWord w = .error e ∧ t = s.afterChoice.finish (.error .illegalCommand)) := by
  rcases step_cases s h with ⟨k, e⟩ | ⟨_, i, k, hd, e⟩ | ⟨_, x, k, hd, e⟩ | ⟨_, k, e⟩ <;>
    rw [hm] at k <;> cases k <;> rw [e] at ht <;> cases ht
  · exact .inl ⟨i, hd, rfl⟩
  · exact .inr ⟨x, hd, rfl⟩

/-- The next state of a step of the outside world. -/
theorem step_host {s t : State} {req : BusReq} (h : s.cfg.Legal) (hm : s.nextMove = .host req)
    (ht : step s = .next t) : t = s.afterChoice.hostMove req := by
  rcases step_cases s h with ⟨k, e⟩ | ⟨_, _, k, _, e⟩ | ⟨_, _, k, _, e⟩ | ⟨_, k, e⟩ <;>
    rw [hm] at k <;> cases k
  rw [e] at ht
  cases ht
  rfl

/-- An idle step answers the same state. -/
theorem step_idle {s t : State} (h : s.cfg.Legal) (hm : s.nextMove = .idle) (ht : step s = .next t) :
    t = s := by
  rcases step_cases s h with ⟨k, e⟩ | ⟨_, _, k, _, e⟩ | ⟨_, _, k, _, e⟩ | ⟨_, k, e⟩ <;>
    rw [hm] at k <;> cases k
  rw [e] at ht
  cases ht
  rfl

end Sys2Proof.Machine
end

