-- ==== Sys2Proof/Tests/Slice0.lean ====
section
/-! SUPPORT. The model's own tests, each of one step on a small state, with expected values from
95_test_vectors.md; and for every obligation that has hypotheses a witness that they can be met together. -/

namespace Sys2Proof.Tests

open Sys2Proof Sys2Proof.Machine Sys2Proof.Claims

-- one theorem after the other: run side by side, the kernel evaluations pass the thread limit
set_option Elab.async false

/-! ### Helpers -/

/-- The machine after reset in configuration `c`, with some registers loaded. -/
def load (c : Config) (regs : List (Reg × Nat)) : State :=
  regs.foldl (fun s p => s.setReg p.1 p.2) (State.resetOf c)

/-- The standard configuration with registers loaded. -/
def std (regs : List (Reg × Nat)) : State := load Config.standard regs

/-- DB = 60. -/
def cfg60 : Config := { Config.standard with digitBits := 60 }

/-- `MAXD = 2`. -/
def cfgTiny : Config := { Config.standard with maxd := 2 }

/-- `MAX_COMBA = 4`. -/
def cfgComba4 : Config := { Config.standard with maxComba := 4 }

/-- What a command leaves: its code, its path and register `r`. -/
def result (i : Instr) (r : Reg) (s : State) : Option (Code × MontPath × Nat) :=
  (nextState? (exec i s)).map fun t => (t.err, t.path, t.reg r)

/-- What a command leaves: its code and `SRES`. -/
def scalar (i : Instr) (s : State) : Option (Code × Word) :=
  (nextState? (exec i s)).map fun t => (t.err, t.sres)

/-- The legal command of a word, if it is one. -/
def legal? (w : Word) : Option Instr := (decodeWord w).toOption

/-- The reason why a word is illegal. -/
def illegal? (w : Word) : Option DecodeError :=
  match decodeWord w with
  | .ok _ => none
  | .error e => some e

/-- An outcome that shows a next state is one. -/
theorem next_of_isSome (o : Host.Outcome State Fault Refusal) (h : (nextState? o).isSome = true) :
    ∃ t, o = .next t := by
  cases o with
  | next t => exact ⟨t, rfl⟩
  | fault r => cases h
  | refused r => cases h

/-- A state with one pending word and one host access, the next choice going to `who`. -/
def contended (w : Word) (req : BusReq) (who : Agent) : State :=
  { State.reset.accept w with hostQ := [req], schedule := [who] }

/-- `s` with one request of the outside world. -/
def requested (req : BusReq) (s : State) : State := { s with hostQ := [req] }

/-- The state after one step, if there is one. -/
def afterStep (s : State) : Option State := nextState? (step s)

/-! ### Syntax and decoding -/

/-- The well-formedness check refuses each mode that R85 excludes. -/
theorem test_wellFormed_refuses :
    (Instr.expmodFast 0 0 0 0 3).wellFormed = false ∧
    (Instr.expmodFast 5 1 2 3 15).wellFormed = false ∧
    (Instr.expmodFast 5 1 2 3 2).wellFormed = true ∧
    (Instr.expmod 0 0 0 0 15).wellFormed = true := by decide

/-- The legal words of 95_test_vectors.md 2.6, first half. -/
theorem test_decode_system_montgomery_barrett :
    legal? 0x0000000000000000 = some .nop ∧
    legal? 0x0000000000000101 = some (.montSetup 1 0) ∧
    legal? 0x0000000000000402 = some (.montNorm 4 0) ∧
    legal? 0x0000000000102303 = some (.montReduce 3 2 0 1) ∧
    legal? 0x0000000000000104 = some (.barSetup 1 0) ∧
    legal? 0x0000000000102305 = some (.barReduce 3 2 0 1) := by decide

/-- The legal words of 95_test_vectors.md 2.6, second half. -/
theorem test_decode_radix_exponent_trials :
    legal? 0x0000000000007006 = some (.drIs2k 7) ∧
    legal? 0x0000000000002007 = some (.drIs2kL 2) ∧
    legal? 0x0000000000000108 = some (.drSetup 1 0) ∧
    legal? 0x0000000000000109 = some (.drSetupL 1 0) ∧
    legal? 0x000000000023010A = some (.drReduce 1 0 3 2) ∧
    legal? 0x000000000023010B = some (.drReduceL 1 0 3 2) ∧
    legal? 0x000000000032150C = some (.expmod 5 1 2 3 0) ∧
    legal? 0x000000000F00000C = some (.expmod 0 0 0 0 15) ∧
    legal? 0x000000000232150D = some (.expmodFast 5 1 2 3 2) ∧
    legal? 0x000000510000000E = some (.rmTrials 81) ∧
    legal? 0xFFFFFFFF0000000E = some (.rmTrials 0xFFFFFFFF) := by decide

/-- The illegal words of 95_test_vectors.md 2.6, each refused by name, and a `MONT_SETUP` with `RB = 1`,
which R85 excludes (log 21). -/
theorem test_decode_refuses :
    illegal? 0x000000000300000D = some .reservedMode ∧
    illegal? 0x000000000000000F = some .reservedOpcode ∧
    illegal? 0x00000000000000FF = some .reservedOpcode ∧
    illegal? 0x0000000010000000 = some .reservedBits ∧
    illegal? 0x0000000100000101 = some .unusedField ∧
    illegal? 0x000000000000010E = some .unusedField ∧
    illegal? 0x0000000000300101 = some .unusedField ∧
    illegal? 0x0000000000010101 = some .unusedField ∧
    illegal? 0x0000000001000006 = some .unusedField ∧
    illegal? 0x0000000000000106 = some .unusedField := by decide

/-- The encoder writes the worked words of R92, and the table's numbering reaches the decoder. -/
theorem test_encode_and_table_word :
    encode (.expmodFast 5 1 2 3 2) = 0x000000000232150D ∧
    encode (.rmTrials 0xFFFFFFFF) = 0xFFFFFFFF0000000E ∧
    decodeTableWord 64 0x102303 = some (.montReduce 3 2 0 1) ∧
    decodeTableWord 64 0xFF = none := by decide

/-- The disassembler's text (R90, R92). -/
theorem test_disassemble :
    disassemble 0x000000000232150D = "expmod.fast b5, b1, b2, b3, 2" ∧
    disassemble 0xFFFFFFFF0000000E = "rm.trials -1" ∧
    disassemble 0x000000000300000D = ".word 0x000000000300000D" := by decide

/-! ### The commands -/

theorem test_nop : result .nop 0 (std [(0, 9)]) = some (.ok, .unused, 9) := by decide +kernel

theorem test_montSetup :
    result (.montSetup 1 0) 1 (std [(0, 497)]) = some (.ok, .unused, 0x08B130EF) ∧
    result (.montSetup 1 0) 1 (std [(0, 2 ^ 28 + 1)]) = some (.ok, .unused, 0x0FFFFFFF) ∧
    result (.montSetup 1 0) 1 (load cfg60 [(0, 497)]) = some (.ok, .unused, 0x0EAE19C128B130EF) := by
  decide +kernel

theorem test_montSetup_even :
    result (.montSetup 1 0) 1 (std [(0, 1000), (1, 7)]) = some (.invalidArgument, .unused, 7) := by
  decide +kernel

theorem test_montNorm :
    result (.montNorm 1 0) 1 (std [(0, 497)]) = some (.ok, .unused, 289) ∧
    result (.montNorm 1 0) 1 (std [(0, 2 ^ 28 + 1)]) = some (.ok, .unused, 1) ∧
    result (.montNorm 1 0) 1 (load cfg60 [(0, 497)]) = some (.ok, .unused, 400) := by decide +kernel

theorem test_montNorm_corners :
    result (.montNorm 1 0) 1 (std [(0, 0)]) = some (.ok, .unused, 268435456) ∧
    result (.montNorm 1 0) 1 (std [(0, 1)]) = some (.ok, .unused, 1) ∧
    result (.montNorm 1 0) 1 (std [(0, 2 ^ 28)]) = some (.ok, .unused, 268435456) ∧
    result (.montNorm 1 0) 1 (std [(0, 2 ^ 56)]) = some (.ok, .unused, 2 ^ 56) := by decide +kernel

theorem test_montReduce :
    result (.montReduce 3 2 0 1) 3 (std [(0, 497), (1, 0x08B130EF), (2, 1445)]) =
      some (.ok, .comba, 5) ∧
    result (.montReduce 3 2 0 1) 3 (std [(0, 497), (1, 0x08B130EF), (2, 2 ^ 56)]) =
      some (.ok, .comba, 268434959) ∧
    result (.montReduce 3 2 0 1) 3 (std [(0, 1000), (1, 1), (2, 5)]) =
      some (.invalidArgument, .unused, 0) := by decide +kernel

theorem test_montReduce_capacity :
    result (.montReduce 3 2 0 1) 3
      (load cfgTiny [(0, 2 ^ 28 + 1), (1, 0x0FFFFFFF), (2, 2 ^ 140 - 1), (3, 7)]) =
      some (.outOfMemory, .unused, 7) ∧
    result (.montReduce 3 2 0 1) 3 (load cfgTiny [(0, 2 ^ 28 + 1), (1, 0x0FFFFFFF), (2, 2 ^ 112)]) =
      some (.ok, .comba, 0xFFFFFFEFFFFFFF) := by decide +kernel

theorem test_barSetup :
    result (.barSetup 1 0) 1 (std [(0, 497)]) = some (.ok, .unused, 0x83DCF94DC757) ∧
    result (.barSetup 1 0) 1 (std [(0, 2 ^ 28)]) = some (.ok, .unused, 2 ^ 84) := by decide +kernel

theorem test_barSetup_errors :
    result (.barSetup 1 0) 1 (std [(1, 7)]) = some (.divisionByZero, .unused, 7) ∧
    result (.barSetup 1 0) 1 (load cfgTiny [(0, 1), (1, 7)]) = some (.outOfMemory, .unused, 7) := by
  decide +kernel

theorem test_barReduce :
    result (.barReduce 3 2 0 1) 3 (std [(0, 497), (1, 0x83DCF94DC757), (2, 247008)]) =
      some (.ok, .unused, 496) ∧
    result (.barReduce 3 2 0 1) 3 (std [(0, 2 ^ 56 - 5), (1, 0x100000000000005), (2, (2 ^ 56 - 6) ^ 2)]) =
      some (.ok, .unused, 1) := by decide +kernel

theorem test_barReduce_outside :
    result (.barReduce 3 2 0 1) 3 (std [(0, 497), (1, 0x83DCF94DC757), (2, 2 ^ 100)]) =
      some (.ok, .unused, 233) ∧
    result (.barReduce 3 2 0 1) 3 (std [(2, 5)]) = some (.invalidArgument, .unused, 0) := by
  decide +kernel

theorem test_drIs2k :
    scalar (.drIs2k 0) (std [(0, 2 ^ 56 - 5)]) = some (.ok, 1) ∧
    scalar (.drIs2k 0) (std [(0, 2 ^ 28)]) = some (.ok, 1) ∧
    scalar (.drIs2k 0) (std [(0, 2 ^ 29)]) = some (.ok, 0) ∧
    scalar (.drIs2k 0) (std [(0, 2 ^ 57 - 2 ^ 29)]) = some (.ok, 0) := by decide +kernel

theorem test_drIs2kL :
    scalar (.drIs2kL 0) (std [(0, 2 ^ 112 - 2 ^ 56 - 1)]) = some (.ok, 1) ∧
    scalar (.drIs2kL 0) (std [(0, 5)]) = some (.ok, 0) ∧
    scalar (.drIs2kL 0) (std [(0, 2 ^ 84 - 2 ^ 56 - 5)]) = some (.ok, 0) := by decide +kernel

theorem test_drSetup :
    result (.drSetup 1 0) 1 (std [(0, 1000)]) = some (.ok, .unused, 24) ∧
    result (.drSetup 1 0) 1 (std [(0, 2 ^ 56 - 2 ^ 28), (1, 7)]) = some (.ok, .unused, 0) ∧
    result (.drSetup 1 0) 1 (std []) = some (.ok, .unused, 1) := by decide +kernel

theorem test_drSetupL :
    result (.drSetupL 1 0) 1 (std [(0, 2 ^ 84 - 2 ^ 56 - 5)]) = some (.ok, .unused, 2 ^ 56 + 5) ∧
    result (.drSetupL 1 0) 1 (std []) = some (.ok, .unused, 1) := by decide +kernel

theorem test_drReduce :
    result (.drReduce 1 0 3 2) 1 (std [(0, 12345), (3, 1000), (2, 2 ^ 28 + 24)]) =
      some (.ok, .unused, 345) ∧
    result (.drReduce 1 0 3 2) 1 (std [(0, 2 ^ 60 + 12345), (3, 2 ^ 56 - 2 ^ 28), (2, 0)]) =
      some (.ok, .unused, 12345) ∧
    result (.drReduce 1 0 3 2) 1 (std [(0, 12345), (3, 7), (2, 1)]) = some (.ok, .unused, 4) := by
  decide +kernel

theorem test_drReduce_errors :
    result (.drReduce 1 0 3 2) 1 (std [(0, 5), (3, 0), (2, 1)]) = some (.invalidArgument, .unused, 0) ∧
    result (.drReduce 1 0 3 2) 1 (std [(0, 5), (3, 1000), (2, 1024)]) =
      some (.invalidArgument, .unused, 0) := by decide +kernel

theorem test_drReduceL :
    result (.drReduceL 1 0 3 2) 1 (std [(0, 2 ^ 200 + 99), (3, 2 ^ 84 - 2 ^ 56 - 5), (2, 2 ^ 56 + 5)]) =
      some (.ok, .unused, 0x10000001E000003D3) := by decide +kernel

theorem test_drReduceL_errors :
    result (.drReduceL 1 0 3 2) 1 (std [(0, 5), (3, 0), (2, 1)]) = some (.invalidArgument, .unused, 0) ∧
    result (.drReduceL 1 0 3 2) 1 (std [(0, 5), (3, 1000), (2, 1024)]) =
      some (.invalidArgument, .unused, 0) := by decide +kernel

theorem test_expmod :
    result (.expmod 5 1 2 3 0) 5 (std [(1, 4), (2, 13), (3, 497)]) = some (.ok, .unused, 445) ∧
    result (.expmod 5 1 2 3 15) 5 (std [(1, 1000), (2, 77), (3, 497)]) = some (.ok, .unused, 125) ∧
    result (.expmod 5 1 2 3 0) 5 (std [(1, 3), (2, 2 ^ 28), (3, 497)]) = some (.ok, .unused, 60) := by
  decide +kernel

theorem test_expmod_corners :
    result (.expmod 5 1 2 3 1) 5 (std [(1, 5), (2, 0), (3, 1)]) = some (.ok, .unused, 1) ∧
    result (.expmod 5 1 2 3 0) 5 (std [(1, 5), (2, 3), (3, 1)]) = some (.ok, .unused, 0) ∧
    result (.expmod 5 1 2 3 0) 5 (std [(1, 7), (5, 9)]) = some (.divisionByZero, .unused, 9) := by
  decide +kernel

theorem test_expmodFast :
    result (.expmodFast 5 1 2 3 0) 5 (std [(1, 4), (2, 13), (3, 497)]) = some (.ok, .comba, 445) ∧
    result (.expmodFast 5 1 2 3 0) 5 (load cfgComba4 [(1, 3), (2, 5), (3, 2 ^ 112 - 3)]) =
      some (.ok, .baseline, 243) ∧
    result (.expmodFast 5 1 2 3 2) 5 (std [(1, 3), (2, 1000), (3, 2 ^ 56 - 2 ^ 28)]) =
      some (.ok, .unused, 6354609529969441) := by decide +kernel

theorem test_expmodFast_codes :
    result (.expmodFast 5 1 2 3 0) 5 (std [(1, 2), (2, 10), (3, 1000)]) =
      some (.invalidArgument, .unused, 0) ∧
    result (.expmodFast 5 1 2 3 1) 5 (std [(1, 4), (2, 13), (3, 497)]) =
      some (.unimplemented, .unused, 0) ∧
    result (.expmodFast 5 1 2 3 2) 5 (std [(1, 7)]) = some (.divisionByZero, .unused, 0) ∧
    result (.expmodFast 5 1 2 3 3) 5 (std []) = some (.illegalCommand, .unused, 0) := by decide +kernel

theorem test_rmTrials :
    scalar (.rmTrials 80) (std []) = some (.ok, 0xFFFFFFFFFFFFFFFF) ∧
    scalar (.rmTrials 81) (std []) = some (.ok, 37) ∧
    scalar (.rmTrials 159) (std []) = some (.ok, 40) ∧
    scalar (.rmTrials 10239) (std []) = some (.ok, 3) ∧
    scalar (.rmTrials 10240) (std []) = some (.ok, 2) := by decide +kernel

theorem test_rmTrials_negative :
    scalar (.rmTrials 0x80000000) (std []) = some (.ok, 0xFFFFFFFFFFFFFFFF) := by decide +kernel

/-! ### Bus, status, reset and the step (95_test_vectors.md 2.7) -/

theorem test_constant_registers :
    State.reset.memRead 0x000 = 0x000001074F44494E ∧ State.reset.memRead 0x008 = 0x020001000400001C ∧
    State.reset.memRead 0x010 = 0x0000000003100100 ∧ State.reset.memRead 0x0C0 = 0 := by decide

/-- A bus error changes nothing but the answer. -/
theorem test_bus_error :
    State.reset.hostMove (.read 0x020 4) = { State.reset with responses := [.busError [0, 0, 0, 0]] } ∧
    State.reset.hostMove (.write 0x024 [1, 2, 3, 4, 5, 6, 7, 8]) =
      { State.reset with responses := [.busError []] } ∧
    State.reset.hostMove (.read 0x40000 8) = { State.reset with responses := [.notSelected] } := by
  decide +kernel

theorem test_digit_writes :
    (State.reset.memWrite 0x1000 0xFFFFFFFFFFFFFFFF).memRead 0x1000 = 0x000000000FFFFFFF ∧
    (State.reset.memWrite 0x1008 1).reg 0 = 2 ^ 28 ∧
    (State.reset.memWrite 0x1008 1).memRead 0x040 = 2 ∧
    ((std [(0, 2 ^ 28 + 5)]).memWrite 0x1008 0).memRead 0x040 = 1 ∧
    ((State.resetOf cfgTiny).memWrite 0x1010 7).memRead 0x1010 = 0 := by decide +kernel

theorem test_reset_discards_the_command :
    ((State.reset.accept 0x101).memWrite 0x018 2) = State.reset := by decide +kernel

/-- An illegal word completes with `STATUS = 0x052`. -/
theorem test_illegal_word_status :
    (nextState? (step (State.reset.accept 0xFF))).map (·.memRead 0x020) = some 0x052 := by
  decide +kernel

/-- `SEQ` wraps. -/
theorem test_seq_wraps :
    (nextState? (exec .nop { State.reset with seq := 0xFFFFFFFF })).map (·.seq) = some 0 := by
  decide +kernel

/-- The step runs the placed command as the first one after reset. -/
theorem test_step_runs_placed_command :
    (nextState? (step (State.reset.withFetchWord 64 0x000000510000000E))).map (·.sres) = some 37 := by
  decide +kernel

/-! ### Witnesses: the hypotheses of each obligation can be met, clause by clause -/

theorem standard_legal : Config.standard.Legal := by decide

theorem load_legal : (std [(0, 497)]).cfg.Legal ∧ (load cfg60 [(0, 497)]).cfg.Legal ∧
    (load cfgTiny [(0, 497)]).cfg.Legal := by decide +kernel

/-- The reset state meets the invariant's every clause; so does it with a command accepted. -/
theorem accepted_inv (w : Word) : (State.reset.accept w).Inv where
  legal := standard_legal
  regs := by
    intro r
    have h : ∀ r : Reg, (Vector.replicate 16 0 : Vector Nat 16).get r = 0 := by decide
    exact (h r).le.trans_lt (Nat.pow_pos (Nat.two_pow_pos _))
  busy_pend := rfl
  pend_done := fun _ => rfl
  pend_cmd := by intro x h; cases h; rfl
  path_ok := fun h => absurd rfl h

theorem witness_DecodeOfEncode :
    (Instr.expmodFast 15 0 15 7 2).wellFormed = true ∧ (Instr.rmTrials 0xFFFFFFFF).wellFormed = true := by
  decide

theorem witness_LegalWordsHaveNoAliases :
    decodeWord 0x101 = .ok (.montSetup 1 0) ∧ decodeWord 0x102 = .ok (.montNorm 1 0) ∧
    (0x101 : Word) ≠ 0x102 := ⟨rfl, rfl, by decide⟩

/-- The mode clause at both sides of its boundary: 2 fits the table's last row with modes, 3 does not. -/
theorem witness_LegalWordsFitTheirFormat :
    (legal? 0x0200000D = some (.expmodFast 0 0 0 0 2) ∧
      ∃ row ∈ opcodeRows, 0x0200000D &&& row.2 = row.1 ∧
        (row.1 = 0xD → ((0x0200000D : Word).extractLsb' 24 4).toNat ≤ 2)) ∧
    (legal? 0x0300000D = none ∧
      ¬ ∃ row ∈ opcodeRows, 0x0300000D &&& row.2 = row.1 ∧
        (row.1 = 0xD → ((0x0300000D : Word).extractLsb' 24 4).toNat ≤ 2)) := by decide

theorem witness_StepRunsThePendingCommand :
    ((State.reset.accept 0x101).cfg.Legal ∧ (State.reset.accept 0x101).pend = some 0x101 ∧
      decodeWord 0x101 = .ok (.montSetup 1 0) ∧ (State.reset.accept 0x101).hostQ = []) ∧
    (let s := contended 0x101 .resetInput .engine
     s.cfg.Legal ∧ s.pend = some 0x101 ∧ s.hostQ ≠ [] ∧ s.schedule.head? ≠ some .host) :=
  ⟨⟨standard_legal, rfl, rfl, rfl⟩, standard_legal, rfl, by decide, by decide⟩

theorem witness_IllegalWordCompletesWithIllegalCommand :
    ((State.reset.accept 0xFF).cfg.Legal ∧ (State.reset.accept 0xFF).pend = some 0xFF ∧
      decodeWord 0xFF = .error .reservedOpcode ∧ (State.reset.accept 0xFF).hostQ = []) ∧
    (let s := contended 0xFF .resetInput .engine
     s.cfg.Legal ∧ s.pend = some 0xFF ∧ s.hostQ ≠ [] ∧ s.schedule.head? ≠ some .host) :=
  ⟨⟨standard_legal, rfl, rfl, rfl⟩, standard_legal, rfl, by decide, by decide⟩

theorem witness_StepPerformsTheOldestRequest :
    (let s : State := { State.reset with hostQ := [.read 0 8] }
     s.cfg.Legal ∧ s.hostQ = [.read 0 8] ∧ s.pend = none) ∧
    (let s := contended 0x101 (.read 0 8) .host
     s.cfg.Legal ∧ s.hostQ = [.read 0 8] ∧ s.pend ≠ none ∧ s.schedule.head? = some .host) :=
  ⟨⟨standard_legal, rfl, rfl⟩, standard_legal, rfl, by decide, rfl⟩

theorem witness_ExactlyIllegalConfigurationsAreRefused :
    ¬ (State.resetOf { Config.standard with tabSize := 255 }).cfg.Legal ∧
    (State.resetOf { Config.standard with tabSize := 256 }).cfg.Legal ∧
    ¬ (State.resetOf { Config.standard with maxd := 1025 }).cfg.Legal := by decide

theorem witness_EveryStepGoesOn : State.reset.cfg.Legal := standard_legal

theorem witness_ResetMeetsTheInvariant : cfg60.Legal ∧ cfgTiny.Legal := by decide

theorem witness_EveryStepKeepsTheInvariant :
    (State.reset.accept 0x101).Inv ∧ ∃ t, step (State.reset.accept 0x101) = .next t :=
  ⟨accepted_inv _, next_of_isSome _ (by decide +kernel)⟩

theorem witness_StatusReadTellsCompletion :
    (State.reset.accept 0).Inv ∧ ((State.reset.accept 0).memRead 0x020).getLsbD 0 = true ∧
    ((completed State.reset .ok .unused).memRead 0x020).getLsbD 1 = true :=
  ⟨accepted_inv _, by decide, by decide⟩

theorem witness_BothResetEventsPerformReset :
    (let s := contended 0x101 .resetInput .host
     s.cfg.Legal ∧ s.schedule.head? = some .host ∧ s.hostQ = [.resetInput]) ∧
    (let s : State := { State.reset with hostQ := [.write 0x018 (lanesOfWord 2)] }
     s.cfg.Legal ∧ s.pend = none ∧ (2 : Word).getLsbD 1 = true ∧
      s.hostQ = [.write (s.cfg.base + 0x018) (lanesOfWord 2)]) :=
  ⟨⟨standard_legal, rfl, rfl⟩, standard_legal, rfl, by decide, rfl⟩

theorem witness_AfterResetEverythingReadsZero :
    0x018 % 8 = 0 ∧ 0x018 < 0x40000 ∧ 0x3FFF8 % 8 = 0 ∧ 0x3FFF8 < 0x40000 := by decide

/-- Both sides of `MAXD`, the last digit offset, the last reserved word. -/
theorem witness_LegalReadReturnsTheCurrentValue :
    (1023 < 1024 ∧ 1023 < (std []).cfg.maxd) ∧ (2 < 1024 ∧ ¬ 2 < (load cfgTiny []).cfg.maxd) ∧
    (0x0C0 ≤ 0xFF8 ∧ 0xFF8 < 0x1000) ∧ 0x21000 ≤ 0x21000 ∧ (0x3FFF8 < 0x40000 ∧ 0x3FFF8 % 8 = 0) := by
  decide

/-- The last byte of the aperture, a wrong size, and the bytes on both sides of an aperture. -/
theorem witness_IllegalAccessIsABusError :
    (0x3FFFF < 0x40000 ∧ (8 ≠ 8 ∨ 0x3FFFF % 8 ≠ 0)) ∧
    (0x020 < 0x40000 ∧ (([1, 2, 3, 4] : List Byte).length ≠ 8 ∨ 0x020 % 8 ≠ 0)) ∧
    (let s := State.resetOf { Config.standard with base := 0x40000 }
     0x3FFFF < s.cfg.base ∧ s.cfg.base + 0x40000 ≤ 0x80000) := by decide

/-- The last word of the aperture; `SEQ` and the first word after the windows; both sides of `MAXD`. -/
theorem witness_DigitWriteStoresOneDigit :
    (let s := load cfgTiny []; s.cfg.Legal ∧ 0x3FFF8 < 0x40000 ∧ 0x3FFF8 % 8 = 0) ∧
    (0x038 % 8 = 0 ∧ 0x038 ≠ 0x018 ∧ 0x038 ≠ 0x020 ∧ 0x038 ≠ 0x028 ∧ 0x038 < 0x1000) ∧
    (0x21000 % 8 = 0 ∧ 0x21000 ≠ 0x018 ∧ 0x21000 ≤ 0x21000) ∧
    (let s := load cfgTiny []; s.cfg.Legal ∧ s.pend = none ∧ 2 < 1024 ∧ s.cfg.maxd ≤ 2) ∧
    (let s := load cfgTiny []; s.cfg.Legal ∧ s.pend = none ∧ 1 < 1024 ∧ 1 < s.cfg.maxd ∧ 0 ≠ 1) := by
  decide

theorem witness_WritesWhileBusy :
    (State.reset.accept 0x101).pend = some 0x101 ∧ 1023 < 1024 ∧
    (0xFF8 % 8 = 0 ∧ 0xFF8 < 0x1000) ∧ (0x21000 % 8 = 0 ∧ 0x21000 ≤ 0x21000) := by decide

theorem witness_CommandWriteIsAcceptedOrDropped :
    State.reset.pend = none ∧ (State.reset.accept 0x101).pend ≠ none := by decide

theorem witness_ControlRegister : (1 : Word).getLsbD 1 = false ∧ (2 : Word).getLsbD 1 = true := by decide

/-- A register at its largest value. -/
theorem witness_UsedRegisterReadsTheDigitCount :
    let s := load cfgTiny [(0, 2 ^ 56 - 1)]
    s.cfg.Legal ∧ s.reg 0 = 2 ^ 56 - 1 ∧ s.reg 0 < s.cfg.beta ^ s.cfg.maxd := by decide +kernel

theorem witness_ConstantRegistersShowTheConfiguration :
    State.reset.cfg.Legal ∧ State.reset.cfg.tabSize < 2 ^ 16 := by decide

/-- One engine step that completes with OK, one with an error. -/
theorem witness_EngineStepEndsInOneCompletion :
    let s := State.reset.accept 0x108
    let z := State.reset.accept 0x101
    (s.cfg.Legal ∧ s.nextMove = .engine 0x108 ∧ (∃ t, step s = .next t) ∧
      (nextState? (step s)).map (·.err) = some .ok) ∧
    (z.cfg.Legal ∧ z.nextMove = .engine 0x101 ∧ (∃ t, step z = .next t) ∧
      (nextState? (step z)).map (·.err) = some .invalidArgument) :=
  ⟨⟨standard_legal, rfl, next_of_isSome _ (by decide +kernel), by decide +kernel⟩,
    standard_legal, rfl, next_of_isSome _ (by decide +kernel), by decide +kernel⟩

theorem witness_FailedCommandWritesNoResult :
    let s := State.reset.accept 0x101
    s.cfg.Legal ∧ s.nextMove = .engine 0x101 ∧ (∃ t, step s = .next t) ∧
      (nextState? (step s)).map (·.err) = some .invalidArgument :=
  ⟨standard_legal, rfl, next_of_isSome _ (by decide +kernel), by decide +kernel⟩

theorem witness_CommandFrame :
    (∃ t, exec (.drSetup 1 0) (std [(0, 1000)]) = .next t) ∧ destReg (.drSetup 1 0) ≠ some 0 ∧
    writesSres (.drSetup 1 0) = false ∧ mayChange (.drSetup 1 0) (target 0x1000) = false ∧
    mayChange (.rmTrials 81) (target 0x3000) = false :=
  ⟨⟨_, exec_eq _ _⟩, by decide, by decide, by decide, by decide⟩

theorem witness_CompletionCodesPerCommand :
    (State.reset.accept 0x101).Inv ∧ (Instr.montSetup 1 0).wellFormed = true ∧
    ∃ t, exec (.montSetup 1 0) (State.reset.accept 0x101) = .next t :=
  ⟨accepted_inv _, rfl, _, exec_eq _ _⟩

/-- Two states that differ outside the operands, with an OK completion of each kind of result. -/
theorem witness_CommandDependsOnItsOperandsOnly :
    let s := std [(0, 1000)]
    let s' := std [(0, 1000), (1, 5), (7, 9)]
    s.cfg = s'.cfg ∧ (∀ r ∈ sourceRegs (.drSetup 1 0), s.reg r = s'.reg r) ∧
    (nextState? (exec (.drSetup 1 0) s)).map (·.err) = some .ok ∧
    (nextState? (exec (.drSetup 1 0) s')).map (·.err) = some .ok ∧
    (nextState? (exec (.drIs2k 0) s)).map (·.err) = some .ok ∧ writesSres (.drIs2k 0) = true := by
  decide +kernel

theorem witness_OperandsAreStableWhilePending :
    let s := contended 0x101 (.write 0x1000 (lanesOfWord 5)) .host
    s.cfg.Legal ∧ s.pend = some 0x101 ∧ s.nextMove = .host (.write 0x1000 (lanesOfWord 5)) ∧
    isResetReq s.cfg (.write 0x1000 (lanesOfWord 5)) = false ∧ ∃ t, step s = .next t :=
  ⟨standard_legal, rfl, by decide, by decide, next_of_isSome _ (by decide +kernel)⟩

theorem witness_PendingCommandIsEventuallyExecuted :
    let s := contended 0x101 (.write 0x1000 (lanesOfWord 5)) .host
    s.cfg.Legal ∧ s.pend = some 0x101 ∧ ∀ req ∈ s.hostQ, isResetReq s.cfg req = false := by
  decide

theorem witness_WriteErrorFlag :
    let dropped := contended 0x101 (.write 0x028 (lanesOfWord 0)) .host
    let cleared : State := { State.reset with werr := true, hostQ := [.write 0x020 (lanesOfWord 4)] }
    (dropped.cfg.Legal ∧ (nextState? (step dropped)).map (·.werr) = some true) ∧
    (cleared.cfg.Legal ∧ (nextState? (step cleared)).map (·.werr) = some false) := by decide +kernel

theorem witness_DoneFlag :
    let accepted : State := { State.reset with done := true, hostQ := [.write 0x028 (lanesOfWord 0)] }
    let cleared : State := { State.reset with done := true, hostQ := [.write 0x020 (lanesOfWord 2)] }
    (accepted.cfg.Legal ∧ (nextState? (step accepted)).map (·.done) = some false) ∧
    (cleared.cfg.Legal ∧ (nextState? (step cleared)).map (·.done) = some false) ∧
    (nextState? (step (State.reset.accept 0))).map (·.done) = some true := by decide +kernel

/-- Each move: idle, the engine, a reset, an offered command, a `CTRL` write. -/
theorem witness_CompletionStateChangesOnlyAtCompletion :
    State.reset.cfg.Legal ∧ State.reset.nextMove = .idle ∧
    (afterStep State.reset).map (·.seq) = some 0 ∧
    ((std []).accept 0x108).nextMove = .engine 0x108 ∧
    (afterStep ((std []).accept 0x108)).map (·.seq) = some 1 ∧
    (requested .resetInput (std [])).nextMove = .host .resetInput ∧
    (afterStep (requested (.write 0x028 (lanesOfWord 5)) (std []))).map (·.pend) = some (some 5) ∧
    (afterStep (requested (.write 0x018 (lanesOfWord 1)) (std []))).map (·.ie) = some true := by
  decide +kernel

/-- Each way in which a register changes: a command, a digit write, a reset. -/
theorem witness_CompletionStateChangesOnlyAtCompletion_registers :
    (std []).cfg.Legal ∧ (std []).reg 1 = 0 ∧ (std [(1, 7)]).reg 1 = 7 ∧
    (afterStep ((std []).accept 0x108)).map (·.reg 1) = some 1 ∧
    (afterStep (requested (.write 0x3000 (lanesOfWord 5)) (std []))).map (·.reg 1) = some 5 ∧
    (afterStep (requested .resetInput (std [(1, 7)]))).map (·.reg 1) = some 0 := by decide +kernel

theorem witness_ScalarResultRegister :
    let s := State.reset.accept 0x000000510000000E
    s.cfg.Legal ∧ (∃ t, step s = .next t) ∧ (nextState? (step s)).map (·.sres) = some 37 ∧ s.sres = 0 :=
  ⟨standard_legal, next_of_isSome _ (by decide +kernel), by decide +kernel, rfl⟩

theorem witness_InterruptOutputIsALevel :
    ({ State.reset with ie := true } : State).ie = true ∧ (completed State.reset .ok .unused).done = true ∧
    State.reset.pend = none := by decide

/-- An odd low digit, an even one, and a competitor below the radix. -/
theorem witness_MontSetupGivesTheNegatedInverse :
    (let s := std [(0, 497)]
     s.cfg.Legal ∧ s.regDigit0 0 % 2 = 1 ∧ 0x08B130EF < s.cfg.beta ∧
      (0x08B130EF * s.regDigit0 0 + 1) % s.cfg.beta = 0) ∧
    (let s := std [(0, 1000)]; s.cfg.Legal ∧ s.regDigit0 0 % 2 = 0) := by decide +kernel

/-- Each clause at its boundary: 2, the least multi-digit power of two, a power of two with a full top
digit (its result is log 17's), 1 and 0. -/
theorem witness_MontNormGivesTheRadixResidue :
    (load cfgTiny [(0, 2)]).cfg.Legal ∧
    (∀ v ∈ [2, 2 ^ 28, 2 ^ 55, 1, 0], (load cfgTiny [(0, v)]).reg 0 = v ∧
      v < (load cfgTiny [(0, v)]).cfg.beta ^ (load cfgTiny [(0, v)]).cfg.maxd) ∧
    (28 + 1) % 28 ≠ 0 ∧ (55 + 1) % 28 = 0 ∧
    [2, 2 ^ 28, 2 ^ 55, 1, 0].map (montNorm cfgTiny) = [0, 2 ^ 28, 0, 1, 2 ^ 28] := by decide +kernel

theorem witness_MontNorm_no_power (j : Nat) (h : 28 ≤ j) : (497 : Nat) ≠ 2 ^ j := by
  have : 2 ^ 28 ≤ 2 ^ j := Nat.pow_le_pow_right (by decide) h
  omega

theorem witness_MontReduceCompletes :
    (std [(0, 1000)]).reg 0 % 2 = 0 ∧
    (let s := load cfgTiny [(0, 2 ^ 28 + 1), (1, 0x0FFFFFFF), (2, 2 ^ 112)]
     s.reg 0 % 2 = 1 ∧ used s.cfg (montReduceValue s.cfg (s.reg 2) (s.reg 0) (s.regDigit0 1)) = s.cfg.maxd) ∧
    (let s := load cfgTiny [(0, 2 ^ 28 + 1), (1, 0x0FFFFFFF), (2, 2 ^ 140 - 1)]
     s.reg 0 % 2 = 1 ∧
      s.cfg.maxd < used s.cfg (montReduceValue s.cfg (s.reg 2) (s.reg 0) (s.regDigit0 1))) := by
  decide +kernel

/-- The largest `x` of the precondition. -/
theorem witness_MontReduceIsMontgomeryReduction :
    let s := load cfgTiny [(0, 497), (1, 0x08B130EF), (2, 247008)]
    s.cfg.Legal ∧ s.reg 0 < s.cfg.beta ^ s.cfg.maxd ∧ s.reg 0 % 2 = 1 ∧
    (montSetup s.cfg (s.reg 0)).toOption = some (s.regDigit0 1) ∧ s.reg 2 < s.reg 0 * s.reg 0 := by
  decide +kernel

theorem witness_MontReduceStaysBounded : Config.standard.Legal ∧ 497 % 2 = 1 := by decide

theorem witness_MontgomeryRoundTrip :
    Config.standard.Legal ∧ 3 % 2 = 1 ∧ 3 ≤ 3 ∧ montSetup Config.standard 3 = .ok 0x05555555 := by
  refine ⟨by decide, by decide, by decide, ?_⟩
  have h : (montSetup Config.standard 3).toOption = some 0x05555555 := by decide +kernel
  revert h
  cases montSetup Config.standard 3 with
  | ok v => intro h; cases h; rfl
  | error e => intro h; cases h

/-- Modulus 0, a quotient that just fits, one digit more, and the power of β with one digit more. -/
theorem witness_BarrettSetupGivesTheQuotient :
    (load cfgTiny []).cfg.Legal ∧ (load cfgTiny []).reg 0 = 0 ∧
    (load cfgTiny [(0, 497)]).reg 0 ≠ 0 ∧ used cfgTiny 497 + 1 = 2 ∧
    cfgTiny.maxd < used cfgTiny (2 ^ 28 + 1) + 1 ∧
    (cfgTiny.maxd < used cfgTiny 1 + 2 ∧ 1 = cfgTiny.beta ^ (used cfgTiny 1 - 1)) := by decide +kernel

theorem witness_BarrettReduceCompletesBelowTheModulus :
    (let s := load cfgTiny [(2, 5)]
     s.cfg.Legal ∧ s.reg 0 < s.cfg.beta ^ s.cfg.maxd ∧ s.reg 0 = 0) ∧
    (let s := load cfgTiny [(0, 1)]
     s.cfg.Legal ∧ s.reg 0 < s.cfg.beta ^ s.cfg.maxd ∧ s.reg 0 ≠ 0) := by decide +kernel

theorem witness_BarrettReduceIsTheRemainder :
    let s := load cfgTiny [(0, 497), (1, 0x83DCF94DC757), (2, 247008)]
    s.cfg.Legal ∧ s.reg 0 < s.cfg.beta ^ s.cfg.maxd ∧ 0 < s.reg 0 ∧ s.reg 2 < s.reg 0 * s.reg 0 ∧
    s.reg 1 = s.cfg.beta ^ (2 * used s.cfg (s.reg 0)) / s.reg 0 := by decide +kernel

/-- One digit, a value whose bits from `DB` up are all 1, and one that is neither. -/
theorem witness_IsTwoKClassifies :
    used Config.standard (2 ^ 28 - 1) = 1 ∧
    (used Config.standard (2 ^ 56 - 5) ≠ 1 ∧ ∀ j < 56, 28 ≤ j → (2 ^ 56 - 5).testBit j = true) ∧
    (used Config.standard (2 ^ 29) ≠ 1 ∧ 28 < countBits (2 ^ 29) ∧ (2 ^ 29).testBit 28 = false) := by
  decide +kernel

/-- Exactly half of the digits are `MASK`; fewer than half. -/
theorem witness_IsTwoKLClassifies :
    (let v := 2 ^ 56 - 5
     used Config.standard v = 2 * (Finset.filter (fun j => digit Config.standard v j =
      Config.standard.beta - 1) (Finset.range (used Config.standard v))).card) ∧
    (let v := 2 ^ 84 - 2 ^ 56 - 5
     2 * (Finset.filter (fun j => digit Config.standard v j = Config.standard.beta - 1)
      (Finset.range (used Config.standard v))).card < used Config.standard v) := by decide +kernel

theorem witness_DiminishedSetupGivesTheDigit : (std [(0, 1000)]).cfg.Legal := by decide

theorem witness_DiminishedLongSetupGivesTheDifference :
    let s := load cfgTiny [(0, 2 ^ 56 - 1)]
    s.cfg.Legal ∧ s.reg 0 < s.cfg.beta ^ s.cfg.maxd := by decide +kernel

/-- `n = 0`; the least `d` refused; the greatest accepted. -/
theorem witness_DiminishedReduceRunsTheLoop :
    (let s := load cfgTiny [(0, 5), (3, 0), (2, 1)]
     s.cfg.Legal ∧ s.reg 3 < s.cfg.beta ^ s.cfg.maxd ∧ s.reg 3 = 0) ∧
    (let s := load cfgTiny [(0, 5), (3, 1000), (2, 1024)]
     s.cfg.Legal ∧ s.reg 3 < s.cfg.beta ^ s.cfg.maxd ∧ 2 ^ countBits (s.reg 3) = s.reg 2 % s.cfg.beta) ∧
    (let s := load cfgTiny [(0, 5), (3, 1000), (2, 1023)]
     s.cfg.Legal ∧ s.reg 3 ≠ 0 ∧ s.reg 2 % s.cfg.beta < 2 ^ countBits (s.reg 3)) := by decide +kernel

theorem witness_DiminishedLongReduceRunsTheLoop :
    (let s := load cfgTiny [(0, 5), (3, 1000), (2, 1024)]
     s.cfg.Legal ∧ s.reg 3 < s.cfg.beta ^ s.cfg.maxd ∧ 2 ^ countBits (s.reg 3) = s.reg 2) ∧
    (let s := load cfgTiny [(0, 5), (3, 1000), (2, 1023)]
     s.cfg.Legal ∧ s.reg 3 ≠ 0 ∧ s.reg 2 < 2 ^ countBits (s.reg 3)) := by decide +kernel

/-- For each command: the largest `a < n`, the exact constant, and for the first a `d` register longer
than a digit. -/
theorem witness_DiminishedReductionIsModular :
    (let s := load cfgTiny [(0, 999), (3, 1000), (2, 2 ^ 28 + 24)]
     s.cfg.Legal ∧ s.reg 3 < s.cfg.beta ^ s.cfg.maxd ∧ s.reg 3 ≠ 0 ∧
      s.reg 2 % s.cfg.beta < 2 ^ countBits (s.reg 3) ∧ s.reg 0 < s.reg 3 ∧
      ((2 : Int) ^ countBits (s.reg 3) - ((s.reg 2 % s.cfg.beta : Nat) : Int)) % (s.reg 3 : Int) = 0) ∧
    (let s := load cfgTiny [(0, 999), (3, 1000), (2, 24)]
     s.cfg.Legal ∧ s.reg 3 < s.cfg.beta ^ s.cfg.maxd ∧ s.reg 3 ≠ 0 ∧
      s.reg 2 < 2 ^ countBits (s.reg 3) ∧ s.reg 0 < s.reg 3 ∧
      ((2 : Int) ^ countBits (s.reg 3) - (s.reg 2 : Int)) % (s.reg 3 : Int) = 0) := by decide +kernel

theorem witness_ExpmodIsModularExponentiation :
    (let s := load cfgTiny [(1, 7)]
     s.cfg.Legal ∧ s.reg 3 < s.cfg.beta ^ s.cfg.maxd ∧ s.reg 3 = 0) ∧
    (let s := load cfgTiny [(1, 7), (3, 1)]
     s.cfg.Legal ∧ s.reg 3 < s.cfg.beta ^ s.cfg.maxd ∧ s.reg 3 ≠ 0) := by decide +kernel

theorem witness_FastExpmodMontgomeryIsModularExponentiation :
    (let s := load cfgTiny [(1, 7)]
     s.cfg.Legal ∧ s.reg 3 < s.cfg.beta ^ s.cfg.maxd ∧ s.reg 3 % 2 = 0) ∧
    (let s := load cfgTiny [(1, 7), (3, 1)]
     s.cfg.Legal ∧ s.reg 3 < s.cfg.beta ^ s.cfg.maxd ∧ s.reg 3 % 2 = 1) := by decide +kernel

/-- Modulus 0; the greatest exact constant; the least inexact one. -/
theorem witness_FastExpmodDiminishedIsModularExponentiation :
    (let s := load cfgTiny [(1, 7)]
     s.cfg.Legal ∧ s.reg 3 < s.cfg.beta ^ s.cfg.maxd ∧ s.reg 3 = 0) ∧
    (let s := load cfgTiny [(3, 2 ^ 56 - 2 ^ 28 + 1)]
     s.reg 3 < s.cfg.beta ^ s.cfg.maxd ∧ s.reg 3 ≠ 0 ∧
      2 ^ countBits (s.reg 3) - s.reg 3 = s.cfg.beta - 1) ∧
    (let s := load cfgTiny [(3, 2 ^ 56 - 2 ^ 28)]
     s.reg 3 < s.cfg.beta ^ s.cfg.maxd ∧ s.reg 3 ≠ 0 ∧
      2 ^ countBits (s.reg 3) - s.reg 3 = s.cfg.beta) := by decide +kernel

theorem witness_FastExpmodModeOneIsUnimplemented : 3 ≤ (3 : RedMode).val ∧ 3 ≤ (15 : RedMode).val := by
  decide

/-- The rows' first and last sizes, and the first size after the last row. -/
theorem witness_TrialCountsFollowTheTable :
    (80 : BitVec 32).toInt ≤ 80 ∧
    (∀ row ∈ trialRows, (BitVec.ofInt 32 row.1).toInt = row.1 ∧ row.1 ≤ row.2.1 ∧
      (BitVec.ofInt 32 row.2.1).toInt = row.2.1) ∧
    (10240 : BitVec 32).toInt = 10240 ∧ (trialRows.map (·.1)).Pairwise (· < ·) ∧
    (List.zip trialRows trialRows.tail).all (fun p => p.1.2.1 + 1 == p.2.1) = true := by decide

theorem witness_WindowSizeFollowsTheTable :
    (∀ row ∈ windowRows, row.1 ≤ row.2.1) ∧
    (List.zip windowRows windowRows.tail).all (fun p => p.1.2.1 + 1 == p.2.1) = true ∧
    (windowRows.map (·.2.1)).getLast? = some 3529 := by decide

theorem witness_FastPathConditionIsTheReductionsCondition :
    cfgComba4.Legal ∧ 497 * 497 - 1 < 497 * 497 := by decide

end Sys2Proof.Tests
end

section
/-! SUPPORT. Scope (00_scope.md R5, R6): which configurations the machine refuses. -/

namespace Sys2Proof.Machine

/-- In a legal configuration no step stops the machine: each of its moves ends in a next state. -/
theorem exists_step_eq_next_of_legal (s : State) (h : s.cfg.Legal) : ∃ t, step s = .next t := by
  rcases step_cases s h with ⟨-, idle⟩ | ⟨_, _, -, -, command⟩ | ⟨_, _, -, -, illegalWord⟩ | ⟨_, -, host⟩
  exacts [⟨_, idle⟩, ⟨_, command⟩, ⟨_, illegalWord⟩, ⟨_, host⟩]

/-- The machine as a whole refuses a configuration exactly when it is illegal (R6). -/
theorem step_eq_refused_illegalConfiguration_iff (s : State) :
    step s = .refused .illegalConfiguration ↔ ¬ s.cfg.Legal := by
  refine ⟨fun refused legal => ?_, step_of_not_legal s⟩
  obtain ⟨t, next⟩ := exists_step_eq_next_of_legal s legal
  rw [next] at refused
  cases refused

/-- R50: `BASE` is aligned to the 256 KiB of the aperture. -/
theorem base_mod_apertureBytes_eq_zero_iff (c : Config) :
    c.base % apertureBytes = 0 ↔ 2 ^ 18 ∣ c.base :=
  (Nat.dvd_iff_mod_eq_zero (m := 2 ^ 18)).symm

/-- Settles O9: a step is refused exactly in a configuration that is not legal, and legality is R5's
ranges with R6's constraint, `WMAX` written out. -/
theorem exactlyIllegalConfigurationsAreRefused :
    Obligations.ExactlyIllegalConfigurationsAreRefused := by
  intro s
  rw [step_eq_refused_illegalConfiguration_iff, Config.Legal, base_mod_apertureBytes_eq_zero_iff,
    Config.wmax]

end Sys2Proof.Machine
end

section
/-! SUPPORT. The state invariant (10_state.md R21, R30, R33, R35, R40): it holds after reset, and every
operation of the block keeps it. -/

namespace Sys2Proof.Machine

/-- The invariant speaks of these fields only; `DONE` may also be cleared. -/
theorem State.Inv.of_fields {s t : State} (h : s.Inv) (cfg : t.cfg = s.cfg) (b : t.b = s.b)
    (busy : t.busy = s.busy) (pend : t.pend = s.pend) (done : s.done = false → t.done = false)
    (cmd : t.cmd = s.cmd) (path : t.path = s.path) (err : t.err = s.err) : t.Inv where
  legal := cfg ▸ h.legal
  regs r := by simpa only [State.reg, b, cfg] using h.regs r
  busy_pend := by rw [busy, pend, h.busy_pend]
  pend_done p := done (h.pend_done (pend ▸ p))
  pend_cmd w p := cmd.trans (h.pend_cmd w (pend ▸ p))
  path_ok p := err.trans (h.path_ok (path ▸ p))

/-- 0 is in a register's range in every configuration. -/
theorem regsBounded_of_zero {s : State} (h : ∀ r, s.reg r = 0) : s.RegsBounded := fun r => by
  rw [h r]
  exact Nat.pow_pos (beta_pos s.cfg)

/-- R231: a reset establishes the invariant in every legal configuration. -/
theorem doReset_inv {s : State} (legal : s.cfg.Legal) : s.doReset.Inv where
  legal := legal
  regs := regsBounded_of_zero (State.doReset_reg s)
  busy_pend := rfl
  pend_done _ := rfl
  pend_cmd _ p := nomatch p
  path_ok p := absurd rfl p

/-- R45, R231: the machine starts in a state that a reset leaves as it is. -/
theorem resetOf_inv {c : Config} (legal : c.Legal) : (State.resetOf c).Inv :=
  doReset_inv (s := State.resetOf c) legal

/-- R95: acceptance keeps the invariant. -/
theorem accept_inv {s : State} (h : s.Inv) (w : Word) : (s.accept w).Inv where
  legal := h.legal
  regs := h.regs
  busy_pend := rfl
  pend_done _ := rfl
  pend_cmd _ p := Option.some.inj p
  path_ok := h.path_ok

/-- R21, R61: an idle digit write keeps the registers in range. -/
theorem setDigit_inv {s : State} (h : s.Inv) (r : Reg) {i d : Nat} (hi : i < s.cfg.maxd)
    (hd : d < s.cfg.beta) : (s.setReg r (setDigit s.cfg (s.reg r) i d)).Inv where
  legal := h.legal
  regs q := by
    rw [State.setReg_reg, State.setReg_cfg]
    split
    · exact setDigit_lt s.cfg _ i d _ hd (h.regs r) hi
    · exact h.regs q
  busy_pend := h.busy_pend
  pend_done := h.pend_done
  pend_cmd := h.pend_cmd
  path_ok := h.path_ok

/-- Every write keeps the invariant (R61, R64). -/
theorem writeTarget_inv {s : State} (h : s.Inv) (t : Target) (w : Word) : (s.writeTarget t w).Inv := by
  rcases writeTarget_cases s t w with ⟨_, _, reset⟩ | ⟨_, _, enable⟩ | ⟨_, clear⟩ | ⟨_, _, accepted⟩ |
    ⟨_, _, dropped⟩ | ⟨r, i, _, _, hi, digit⟩ | ⟨ignored, _⟩
  · exact reset ▸ doReset_inv h.legal
  · exact enable ▸ h.of_fields rfl rfl rfl rfl id rfl rfl rfl
  · exact clear ▸ h.of_fields rfl rfl rfl rfl (by simp +contextual) rfl rfl rfl
  · exact accepted ▸ accept_inv h w
  · exact dropped ▸ h.of_fields rfl rfl rfl rfl id rfl rfl rfl
  · exact digit ▸ setDigit_inv h r hi (Nat.mod_lt _ (beta_pos _))
  · exact ignored.symm ▸ h

/-- An answer of the bus keeps the invariant. -/
theorem respond_inv {s : State} (h : s.Inv) (x : BusResp) : (s.respond x).Inv :=
  h.of_fields rfl rfl rfl rfl id rfl rfl rfl

/-- Every move of the outside world keeps the invariant. -/
theorem hostMove_inv {s : State} (h : s.Inv) (req : BusReq) : (s.hostMove req).Inv := by
  rcases hostMove_cases s req with ⟨_, reset⟩ | ⟨_, _, x, answered⟩ | ⟨_, _, _, _, written⟩
  · exact reset ▸ doReset_inv h.legal
  · exact answered ▸ respond_inv h x
  · exact written ▸ respond_inv (writeTarget_inv h _ _) _

/-- Every completion keeps the invariant, whatever the command's rule gave (R97, R99). -/
theorem finish_inv {s : State} (h : s.Inv) (out : Except Code (CmdResult × MontPath)) :
    (s.finish out).Inv := by
  obtain ⟨-, busy, pend, -, path⟩ := finish_completes s out
  obtain ⟨cfg, -⟩ := finish_frame s out
  exact {
    legal := cfg ▸ h.legal
    regs := finish_regs_bounded s out h.legal h.regs
    busy_pend := by rw [busy, pend]; rfl
    pend_done := by simp [pend]
    pend_cmd := by simp [pend]
    path_ok := fun p => by_contra fun e => p (path e) }

/-- Choosing who moves keeps the invariant. -/
theorem afterChoice_inv {s : State} (h : s.Inv) : s.afterChoice.Inv :=
  h.of_fields (afterChoice_cfg s) (afterChoice_b s) (afterChoice_busy s) (afterChoice_pend s)
    (by simp) (afterChoice_cmd s) (afterChoice_path s) (afterChoice_err s)

/-- Settles O12, by the kinds of step: an idle one, the end of a command, and a move of the outside
world. -/
theorem everyStepKeepsTheInvariant : Obligations.EveryStepKeepsTheInvariant := by
  intro s t h ht
  cases hm : s.nextMove with
  | idle => exact step_idle h.legal hm ht ▸ h
  | host req => exact step_host h.legal hm ht ▸ hostMove_inv (afterChoice_inv h) req
  | engine w =>
    rcases step_engine h.legal hm ht with ⟨_, _, e⟩ | ⟨_, _, e⟩ <;>
      exact e ▸ finish_inv (afterChoice_inv h) _

/-- Settles O11, by the reset of any legal configuration; the standard one is legal. -/
theorem resetMeetsTheInvariant : Obligations.ResetMeetsTheInvariant :=
  ⟨fun _ legal => resetOf_inv legal, resetOf_inv (by decide)⟩

end Sys2Proof.Machine
end

section
/-! SUPPORT. What a request of the outside world is (20_memory.md R61, R64, 70_reset_and_hazards.md R230),
in terms of the one thing it writes to, and what a move of the outside world makes of each field. -/

namespace Sys2Proof.Machine

open Sys2Proof.Claims

/-- What the busy hazard drops a write to: `CMD` and the digit windows (R64). -/
def Target.isHazard : Target → Bool
  | .cmd => true
  | .digit _ _ => true
  | _ => false

/-! ### What a request is, by what it writes to -/

section
variable {c : Config} {req : BusReq} {t : Target}

/-- A request writes to at most one thing. -/
theorem writesTo_eq_of_writesTo (h : writesTo c t req = true) (u : Target) :
    writesTo c u req = (t == u) := by
  unfold writesTo at h ⊢
  cases hoff : legalWriteOffset c req with
  | none => simp [hoff] at h
  | some off => simpa [hoff] using congrArg (· == u) (eq_of_beq (by simpa [hoff] using h))

/-- R230: of the writes, only one to `CTRL` with `SRST` set resets. -/
theorem isResetReq_of_writesTo (h : writesTo c t req = true) :
    isResetReq c req = (t == .ctrl && dataBit 1 req) := by
  unfold writesTo at h
  cases req with
  | read addr size => simp [legalWriteOffset] at h
  | resetInput => simp [legalWriteOffset] at h
  | write addr lanes =>
    cases hoff : legalWriteOffset c (.write addr lanes) with
    | none => simp [hoff] at h
    | some off =>
      obtain rfl : target off = t := by simpa [hoff] using h
      simp [isResetReq, hoff, dataBit]

/-- R64: a request is a hazard write exactly when what it writes to is one. -/
theorem isHazardWrite_of_writesTo (h : writesTo c t req = true) :
    isHazardWrite c req = t.isHazard := by
  unfold writesTo at h
  unfold isHazardWrite Target.isHazard
  cases hoff : legalWriteOffset c req with
  | none => simp [hoff] at h
  | some off =>
    rw [hoff] at h
    obtain rfl : target off = t := by simpa using h
    rfl

theorem writesTo_of_no_write (h : legalWriteOffset c req = none) (u : Target) :
    writesTo c u req = false := by
  simp [writesTo, h]

theorem isHazardWrite_of_no_write (h : legalWriteOffset c req = none) :
    isHazardWrite c req = false := by
  simp [isHazardWrite, h]

theorem isResetReq_of_no_write (h : legalWriteOffset c req = none) (hr : req ≠ .resetInput) :
    isResetReq c req = false := by
  cases req <;> simp_all [isResetReq]

/-- The bits of a write's word. -/
theorem dataBit_of_writesTo (h : writesTo c t req = true) (j : Nat) :
    dataBit j req = (dataWord req).getLsbD j := by
  cases req <;> simp_all [writesTo, legalWriteOffset, dataBit, dataWord]

end

/-! ### Everything a move of the outside world can do -/

/-- Every move of the outside world is a reset, an answer alone, or one write and its answer. -/
theorem hostMove_eq_cases (s : State) (req : BusReq) :
    (req = .resetInput ∧ s.hostMove req = s.doReset) ∨
    (legalWriteOffset s.cfg req = none ∧ req ≠ .resetInput ∧ ∃ x, s.hostMove req = s.respond x) ∨
    (∃ t, writesTo s.cfg t req = true ∧
      s.hostMove req = (s.writeTarget t (dataWord req)).respond .written) := by
  rcases hostMove_cases s req with h | h | ⟨addr, lanes, rfl, hoff, e⟩
  · exact .inl h
  · exact .inr (.inl h)
  · exact .inr (.inr ⟨_, by simp [writesTo, hoff], e⟩)

/-- What a move of the outside world makes of the block, answer aside, told by what its request is
(R57, R61, R64, R230). -/
inductive HostEffect (s : State) (req : BusReq) : State → Prop where
  /-- The reset input, or `CTRL` with `SRST` set. -/
  | reset (resets : isResetReq s.cfg req = true) : HostEffect s req s.doReset
  /-- `CTRL` with `SRST` clear. -/
  | enable (noReset : isResetReq s.cfg req = false) (writes : writesTo s.cfg .ctrl req = true) :
      HostEffect s req { s with ie := dataBit 0 req }
  /-- The write-1-to-clear bits of `STATUS`. -/
  | clear (writes : writesTo s.cfg .status req = true) :
      HostEffect s req { s with done := s.done && !dataBit 1 req, werr := s.werr && !dataBit 2 req }
  /-- A command is accepted. -/
  | accept (idle : s.pend = none) (writes : writesTo s.cfg .cmd req = true) :
      HostEffect s req (s.accept (dataWord req))
  /-- The busy hazard drops the write. -/
  | drop (busy : s.pend.isSome = true) (hazard : isHazardWrite s.cfg req = true)
      (noReset : isResetReq s.cfg req = false) (noCtrl : writesTo s.cfg .ctrl req = false)
      (noStatus : writesTo s.cfg .status req = false) : HostEffect s req s.dropWrite
  /-- One digit of a register is stored. -/
  | digit (r : Reg) (i : Nat) (idle : s.pend = none) (inRange : i < s.cfg.maxd)
      (writes : writesTo s.cfg (.digit r i) req = true) :
      HostEffect s req
        (s.setReg r (setDigit s.cfg (s.reg r) i ((dataWord req).toNat % s.cfg.beta)))
  /-- A read, an illegal access, or a write that is ignored. -/
  | nothing (noReset : isResetReq s.cfg req = false) (noCtrl : writesTo s.cfg .ctrl req = false)
      (noStatus : writesTo s.cfg .status req = false) (noCmd : writesTo s.cfg .cmd req = false)
      (noHazard : (s.pend.isSome && isHazardWrite s.cfg req) = false) : HostEffect s req s

/-- Every legal write has one of the effects. -/
theorem writeTarget_effect (s : State) {req : BusReq} {t : Target}
    (writes : writesTo s.cfg t req = true) : HostEffect s req (s.writeTarget t (dataWord req)) := by
  have bits := dataBit_of_writesTo writes
  have resets := isResetReq_of_writesTo writes
  have other := writesTo_eq_of_writesTo writes
  have hazards := isHazardWrite_of_writesTo writes
  rcases writeTarget_cases s t (dataWord req) with ⟨rfl, bit, e⟩ | ⟨rfl, bit, e⟩ | ⟨rfl, e⟩ |
    ⟨rfl, idle, e⟩ | ⟨rfl | ⟨r, i, rfl⟩, busy, e⟩ | ⟨r, i, rfl, idle, inRange, e⟩ |
    ⟨e, noCtrl, noStatus, noCmd, noDigit⟩ <;> rw [e]
  · exact .reset (by rw [resets, bits, bit]; rfl)
  · exact bits 0 ▸ .enable (by rw [resets, bits, bit]; rfl) writes
  · exact bits 1 ▸ bits 2 ▸ .clear writes
  · exact .accept idle writes
  · exact .drop busy hazards resets (other _) (other _)
  · exact .drop busy hazards resets (other _) (other _)
  · exact .digit r i idle inRange writes
  · refine .nothing (by simp [resets, noCtrl]) (by simp [other, noCtrl]) (by simp [other, noStatus])
      (by simp [other, noCmd]) ?_
    rw [hazards]
    cases t with
    | cmd => exact absurd rfl noCmd
    | digit r i =>
      cases idle : s.pend.isSome with
      | false => rfl
      | true => exact absurd rfl (noDigit idle r i)
    | _ => exact Bool.and_false _

/-- Every move of the outside world has one of the effects, and an access records its answer. -/
theorem hostMove_effect (s : State) (req : BusReq) :
    ∃ u rs, HostEffect s req u ∧ s.hostMove req = { u with responses := rs } := by
  rcases hostMove_eq_cases s req with ⟨rfl, e⟩ | ⟨noWrite, noReset, x, e⟩ | ⟨t, writes, e⟩
  · exact ⟨_, s.responses, .reset rfl, e⟩
  · exact ⟨s, _, .nothing (isResetReq_of_no_write noWrite noReset) (writesTo_of_no_write noWrite _)
      (writesTo_of_no_write noWrite _) (writesTo_of_no_write noWrite _)
      (by rw [isHazardWrite_of_no_write noWrite, Bool.and_false]), e⟩
  · exact ⟨_, _, writeTarget_effect s writes, e⟩

/-! ### The fields of the block after a move of the outside world -/

section
variable (s : State) (req : BusReq)

/-- R31, R64: what a move of the outside world makes of `WERR`. -/
theorem hostMove_werr : (s.hostMove req).werr =
    if isResetReq s.cfg req then false
    else if s.pend.isSome && isHazardWrite s.cfg req then true
    else if writesTo s.cfg .status req && dataBit 2 req then false
    else s.werr := by
  obtain ⟨u, rs, effect, e⟩ := hostMove_effect s req
  rw [e]
  cases effect with
  | reset resets => simp [resets]
  | enable noReset writes =>
    simp [noReset, writesTo_eq_of_writesTo writes, isHazardWrite_of_writesTo writes, Target.isHazard]
  | clear writes =>
    simp [isResetReq_of_writesTo writes, writes, isHazardWrite_of_writesTo writes, Target.isHazard,
      Bool.and_comm]
  | accept idle writes =>
    simp [isResetReq_of_writesTo writes, idle, writesTo_eq_of_writesTo writes]
  | drop busy hazard noReset noCtrl noStatus => simp [noReset, busy, hazard]
  | digit r i idle inRange writes =>
    simp [isResetReq_of_writesTo writes, idle, writesTo_eq_of_writesTo writes]
  | nothing noReset noCtrl noStatus noCmd noHazard => rw [noReset, noHazard, noStatus]; rfl

/-- R30: what a move of the outside world makes of `DONE`. -/
theorem hostMove_done : (s.hostMove req).done =
    if isResetReq s.cfg req then false
    else if s.pend.isNone && writesTo s.cfg .cmd req then false
    else if writesTo s.cfg .status req && dataBit 1 req then false
    else s.done := by
  obtain ⟨u, rs, effect, e⟩ := hostMove_effect s req
  rw [e]
  cases effect with
  | reset resets => simp [resets]
  | enable noReset writes => simp [noReset, writesTo_eq_of_writesTo writes]
  | clear writes =>
    simp [isResetReq_of_writesTo writes, writesTo_eq_of_writesTo writes, Bool.and_comm]
  | accept idle writes => simp [writes, idle]
  | drop busy hazard noReset noCtrl noStatus =>
    simp [noReset, Option.isNone_eq_false_iff.mpr busy, noStatus]
  | digit r i idle inRange writes =>
    simp [isResetReq_of_writesTo writes, writesTo_eq_of_writesTo writes]
  | nothing noReset noCtrl noStatus noCmd noHazard => simp [noReset, noStatus, noCmd]

/-- R231: what a reset request makes of the other fields of the block. -/
theorem hostMove_of_resets (resets : isResetReq s.cfg req = true) :
    ∃ rs, s.hostMove req = { s.doReset with responses := rs } := by
  obtain ⟨u, rs, effect, e⟩ := hostMove_effect s req
  cases effect with
  | reset => exact ⟨rs, e⟩
  | enable noReset | drop _ _ noReset | nothing noReset => simp [noReset] at resets
  | clear writes | accept _ writes | digit _ _ _ _ writes =>
    simp [isResetReq_of_writesTo writes] at resets

/-- R32, R33, R36, R37: a move of the outside world that is no reset keeps the latest completion's
results. -/
theorem hostMove_keeps_completion (noReset : isResetReq s.cfg req = false) :
    (s.hostMove req).seq = s.seq ∧ (s.hostMove req).err = s.err ∧ (s.hostMove req).path = s.path ∧
    (s.hostMove req).sres = s.sres := by
  obtain ⟨u, rs, effect, e⟩ := hostMove_effect s req
  rw [e]
  cases effect with
  | reset resets => simp [noReset] at resets
  | _ => exact ⟨rfl, rfl, rfl, rfl⟩

/-- R28: only a `CTRL` write sets `IE`. -/
theorem hostMove_ie (noReset : isResetReq s.cfg req = false) :
    (s.hostMove req).ie = if writesTo s.cfg .ctrl req then dataBit 0 req else s.ie := by
  obtain ⟨u, rs, effect, e⟩ := hostMove_effect s req
  rw [e]
  cases effect with
  | reset resets => simp [noReset] at resets
  | enable _ writes => simp [writes]
  | clear writes | accept _ writes | digit _ _ _ _ writes => simp [writesTo_eq_of_writesTo writes]
  | drop _ _ _ noCtrl | nothing _ noCtrl => simp [noCtrl]

/-- R35, R40, R95: only an idle `CMD` write makes a word pending, and `CMD` shows it. -/
theorem hostMove_cmd_pend (noReset : isResetReq s.cfg req = false) :
    if s.pend.isNone && writesTo s.cfg .cmd req then
      (s.hostMove req).cmd = dataWord req ∧ (s.hostMove req).pend = some (dataWord req)
    else (s.hostMove req).cmd = s.cmd ∧ (s.hostMove req).pend = s.pend := by
  obtain ⟨u, rs, effect, e⟩ := hostMove_effect s req
  rw [e]
  cases effect with
  | reset resets => simp [noReset] at resets
  | accept idle writes => simp [idle, writes]
  | enable _ writes | clear writes | digit _ _ _ _ writes =>
    simp [writesTo_eq_of_writesTo writes]
  | drop busy => simp [Option.isNone_eq_false_iff.mpr busy]
  | nothing _ _ _ noCmd => simp [noCmd]

/-- R23, R61: the outside world changes a register only by a reset or by an idle write of one of its
digits. -/
theorem hostMove_reg_changed {r : Reg} (changed : (s.hostMove req).reg r ≠ s.reg r) :
    isResetReq s.cfg req = true ∨
    (s.pend = none ∧ ∃ k, k < s.cfg.maxd ∧ writesTo s.cfg (.digit r k) req = true) := by
  obtain ⟨u, rs, effect, e⟩ := hostMove_effect s req
  rw [e] at changed
  cases effect with
  | reset resets => exact .inl resets
  | digit q k idle inRange writes =>
    by_cases same : r = q
    · exact .inr ⟨idle, k, inRange, same ▸ writes⟩
    · exact absurd (State.setReg_reg_of_ne s q r _ same) changed
  | _ => exact absurd rfl changed

end

end Sys2Proof.Machine
end

section
/-! SUPPORT. What a command may write (40_system.md R97, R98), and the whole-machine rules about the flags,
the completion's results and the registers (10_state.md R23, R28 to R40). -/

namespace Sys2Proof.Machine

open Sys2Proof.Claims

/-! ### The results of the commands -/

/-- The rule of a command ends in an error, in nothing, in a value for its destination, or in a word for
`SRES` where it is one of the commands with a scalar result. -/
theorem commandRule_cases (i : Instr) (s : State) :
    (∃ code, commandRule i s = .error code) ∨
    commandRule i s = .ok (.nothing, .unused) ∨
    (∃ rd v path, commandRule i s = .ok (.register rd v, path) ∧ destReg i = some rd) ∨
    (∃ w, commandRule i s = .ok (.scalar w, .unused) ∧ writesSres i = true) := by
  cases i with
  | nop => exact .inr (.inl rfl)
  | drIs2k _ | drIs2kL _ | rmTrials _ => exact .inr (.inr (.inr ⟨_, rfl, rfl⟩))
  | montReduce rd ra rb rc =>
    by_cases even : s.reg rb % 2 = 0
    · exact .inl ⟨_, if_pos even⟩
    · exact .inr (.inr (.inl ⟨rd, _, _, if_neg even, rfl⟩))
  | expmodFast rd ra rb rc mode =>
    rcases map_register_cases rd (expmodFastValue s.cfg (s.reg ra) (s.reg rb) (s.reg rc) mode) with
      ⟨code, e⟩ | ⟨v, path, e⟩
    · exact .inl ⟨code, e⟩
    · exact .inr (.inr (.inl ⟨rd, v, path, e, rfl⟩))
  | montSetup rd _ | montNorm rd _ | barSetup rd _ | barReduce rd _ _ _ | drSetup rd _ | drSetupL rd _
  | drReduce rd _ _ _ | drReduceL rd _ _ _ | expmod rd _ _ _ _ =>
    rcases intoReg_cases rd _ with ⟨code, e⟩ | ⟨v, e⟩
    · exact .inl ⟨code, e⟩
    · exact .inr (.inr (.inl ⟨rd, v, _, e, rfl⟩))

/-- A register result goes to the command's destination. -/
theorem destReg_of_commandRule {i : Instr} {s : State} {rd : Reg} {v : Nat} {path : MontPath}
    (h : commandRule i s = .ok (.register rd v, path)) : destReg i = some rd := by
  rcases commandRule_cases i s with ⟨_, e⟩ | e | ⟨_, _, _, e, dest⟩ | ⟨_, e, _⟩ <;> rw [h] at e <;>
    cases e
  exact dest

/-- R36: a scalar result comes only from a command that has one. -/
theorem writesSres_of_commandRule {i : Instr} {s : State} {w : Word} {path : MontPath}
    (h : commandRule i s = .ok (.scalar w, path)) : writesSres i = true := by
  rcases commandRule_cases i s with ⟨_, e⟩ | e | ⟨_, _, _, e, _⟩ | ⟨_, e, scalar⟩ <;> rw [h] at e <;>
    cases e
  exact scalar

section
variable {s : State} {out : Except Code (CmdResult × MontPath)}

/-- A completion that changed a register is an OK completion with that register's new value. -/
theorem finish_reg_changed {r : Reg} (changed : (s.finish out).reg r ≠ s.reg r) :
    (∃ v path, out = .ok (.register r v, path)) ∧ (s.finish out).err = .ok := by
  constructor
  · by_contra none
    exact changed (finish_reg s out r fun rd v path e same => none ⟨v, path, same ▸ e⟩)
  · by_contra failed
    exact changed (congrArg (·.get r) (finish_error_writes_nothing s out failed).1)

/-- A completion that changed `SRES` is an OK completion with a scalar result (R36). -/
theorem finish_sres_changed (changed : (s.finish out).sres ≠ s.sres) :
    (∃ w path, out = .ok (.scalar w, path)) ∧ (s.finish out).err = .ok := by
  constructor
  · by_contra none
    exact changed (finish_sres s out fun w path e => none ⟨w, path, e⟩)
  · by_contra failed
    exact changed (finish_error_writes_nothing s out failed).2

end

/-! ### The frame of a command -/

/-- An offset reads the same in two states that agree on everything a command leaves alone. -/
theorem readTarget_eq_of_frame {i : Instr} {s t : State}
    (regs : ∀ r, destReg i ≠ some r → t.reg r = s.reg r) (sres : writesSres i = false → t.sres = s.sres)
    (cfg : t.cfg = s.cfg) (ie : t.ie = s.ie) (cmd : t.cmd = s.cmd) {x : Target}
    (stays : mayChange i x = false) : t.readTarget x = s.readTarget x := by
  cases x with
  | id | reserved => rfl
  | status | seq => cases stays
  | param | param2 => simp only [State.readTarget, cfg]
  | ctrl => simp only [State.readTarget, State.ctrlWord, ie]
  | cmd => exact cmd
  | sres => exact sres stays
  | used r => simp only [State.readTarget, State.usedWord, cfg, regs r (of_decide_eq_false stays)]
  | digit r k => simp only [State.readTarget, cfg, regs r (of_decide_eq_false stays)]

/-- Settles O27: a command ends in commit and completion, which write its own results only. -/
theorem commandFrame : Obligations.CommandFrame := by
  intro i s t ht
  obtain rfl := (exec_next_iff i s t).mp ht
  obtain ⟨cfg, ie, werr, cmd, hostQ, schedule, responses⟩ := finish_frame s (commandRule i s)
  have regs : ∀ r, destReg i ≠ some r → (s.finish (commandRule i s)).reg r = s.reg r := fun r other =>
    finish_reg s _ r fun rd v path e same => other (same ▸ destReg_of_commandRule e)
  have sres : writesSres i = false → (s.finish (commandRule i s)).sres = s.sres := fun noScalar =>
    finish_sres s _ fun w path e => by simp [writesSres_of_commandRule e] at noScalar
  exact ⟨regs, sres, cfg, ie, werr, cmd, hostQ, schedule, responses,
    fun off stays => readTarget_eq_of_frame regs sres cfg ie cmd stays⟩

/-! ### What a step makes of each field -/

/-- The next state of an engine step is the end of some command, an illegal word's being an error. -/
theorem step_engine_finish {s t : State} {w : Word} (legal : s.cfg.Legal) (hm : s.nextMove = .engine w)
    (ht : step s = .next t) : ∃ out, t = s.afterChoice.finish out := by
  rcases step_engine legal hm ht with ⟨_, _, e⟩ | ⟨_, _, e⟩ <;> exact ⟨_, e⟩

/-- Settles O32: only the outside world changes `WERR`. -/
theorem writeErrorFlag : Obligations.WriteErrorFlag := by
  intro s t legal ht
  cases hm : s.nextMove with
  | idle => rw [step_idle legal hm ht]
  | engine w =>
    obtain ⟨out, rfl⟩ := step_engine_finish legal hm ht
    obtain ⟨-, -, werr, -⟩ := finish_frame s.afterChoice out
    rw [werr, afterChoice_werr]
  | host req =>
    rw [step_host legal hm ht, hostMove_werr]
    simp only [afterChoice_cfg, afterChoice_pend, afterChoice_werr]

/-- Settles O33: every completion sets `DONE`, and the outside world clears it. -/
theorem doneFlag : Obligations.DoneFlag := by
  intro s t legal ht
  cases hm : s.nextMove with
  | idle => rw [step_idle legal hm ht]
  | engine w =>
    obtain ⟨out, rfl⟩ := step_engine_finish legal hm ht
    exact (finish_completes s.afterChoice out).1
  | host req =>
    rw [step_host legal hm ht, hostMove_done]
    simp only [afterChoice_cfg, afterChoice_pend, afterChoice_done]

/-- R23: a step that changes a register ends a command with OK whose destination it is, or performs a
reset or an idle write of one of its digits. -/
theorem step_reg_changed {s t : State} (legal : s.cfg.Legal) (ht : step s = .next t) {r : Reg}
    (changed : t.reg r ≠ s.reg r) :
    (∃ w i, s.nextMove = .engine w ∧ decodeWord w = .ok i ∧ destReg i = some r ∧ t.err = .ok) ∨
    (∃ req, s.nextMove = .host req ∧ (isResetReq s.cfg req = true ∨
      (s.pend = none ∧ ∃ k, k < s.cfg.maxd ∧ writesTo s.cfg (.digit r k) req = true))) := by
  cases hm : s.nextMove with
  | idle => exact absurd (by rw [step_idle legal hm ht]) changed
  | engine w =>
    rw [← afterChoice_reg s r] at changed
    rcases step_engine legal hm ht with ⟨i, decoded, rfl⟩ | ⟨_, _, rfl⟩
    · obtain ⟨⟨v, path, result⟩, ok⟩ := finish_reg_changed changed
      exact .inl ⟨w, i, rfl, decoded, destReg_of_commandRule result, ok⟩
    · exact absurd rfl changed
  | host req =>
    rw [step_host legal hm ht, ← afterChoice_reg s r] at changed
    exact .inr ⟨req, rfl, by simpa using hostMove_reg_changed _ req changed⟩

/-- Settles O34, field by field for each of the three moves. -/
theorem completionStateChangesOnlyAtCompletion : Obligations.CompletionStateChangesOnlyAtCompletion := by
  intro s t legal ht
  refine ⟨?_, fun r changed => step_reg_changed legal ht changed⟩
  cases hm : s.nextMove with
  | idle => exact step_idle legal hm ht
  | engine w =>
    obtain ⟨out, rfl⟩ := step_engine_finish legal hm ht
    obtain ⟨-, ie, -, cmd, -⟩ := finish_frame s.afterChoice out
    obtain ⟨-, -, pend, seq, -⟩ := finish_completes s.afterChoice out
    simp only [ie, cmd, pend, seq, afterChoice_ie, afterChoice_cmd, afterChoice_seq, and_self]
  | host req =>
    obtain rfl := step_host legal hm ht
    dsimp only
    split
    · next resets =>
      obtain ⟨rs, e⟩ := hostMove_of_resets s.afterChoice req (by simpa using resets)
      rw [e]
      exact ⟨rfl, rfl, rfl, rfl, rfl, rfl⟩
    · next noReset =>
      replace noReset : isResetReq s.afterChoice.cfg req = false := by simpa using noReset
      obtain ⟨seq, err, path, -⟩ := hostMove_keeps_completion _ req noReset
      exact ⟨by simpa using seq, by simpa using err, by simpa using path,
        by simpa using hostMove_ie _ req noReset, by simpa using hostMove_cmd_pend _ req noReset⟩

/-- Settles O35: a completion writes `SRES` only with a scalar result, and the outside world only by a
reset. -/
theorem scalarResultRegister : Obligations.ScalarResultRegister := by
  intro s t legal ht changed
  cases hm : s.nextMove with
  | idle => exact absurd (by rw [step_idle legal hm ht]) changed
  | engine w =>
    rw [← afterChoice_sres s] at changed
    rcases step_engine legal hm ht with ⟨i, decoded, rfl⟩ | ⟨_, _, rfl⟩
    · obtain ⟨⟨v, path, result⟩, ok⟩ := finish_sres_changed changed
      exact .inr ⟨w, i, rfl, decoded, writesSres_of_commandRule result, ok⟩
    · exact absurd rfl changed
  | host req =>
    rw [step_host legal hm ht, ← afterChoice_sres s] at changed
    refine .inl ⟨req, rfl, ?_⟩
    by_contra noReset
    obtain ⟨-, -, -, sres⟩ := hostMove_keeps_completion s.afterChoice req (by simpa using noReset)
    exact changed sres

end Sys2Proof.Machine
end

section
/-! SUPPORT. The control and status registers as the host reads and writes them (10_state.md R24 to R39,
R45), and the digit windows under a write (20_memory.md R59, R61). -/

namespace Sys2Proof.Machine

open Sys2Proof.Claims

/-! ### Bits and fields of a word given as a number -/

section
variable {n : Nat} (hn : n < 2 ^ 64)
include hn

theorem extract_ofNat_toNat_of_eq {lo k m : Nat} (field : n / 2 ^ lo % 2 ^ k = m) :
    ((BitVec.ofNat 64 n).extractLsb' lo k).toNat = m := by
  rw [extract_toNat, BitVec.toNat_ofNat, Nat.mod_eq_of_lt hn, field]

theorem getLsbD_ofNat_of_eq {j : Nat} {b : Bool} (bit : n / 2 ^ j % 2 = b.toNat) :
    (BitVec.ofNat 64 n).getLsbD j = b := by
  rw [BitVec.getLsbD, BitVec.toNat_ofNat, Nat.mod_eq_of_lt hn, Nat.testBit_eq_decide_div_mod_eq, bit]
  cases b <;> rfl

/-- Above the number's highest bit the word reads 0. -/
theorem getLsbD_ofNat_eq_false {k j : Nat} (hk : n < 2 ^ k) (hj : k ≤ j) :
    (BitVec.ofNat 64 n).getLsbD j = false :=
  getLsbD_ofNat_of_eq hn (by
    rw [Nat.div_eq_of_lt (hk.trans_le (Nat.pow_le_pow_right two_pos hj))]
    rfl)

end

/-! ### Reset (R45) -/

theorem target_ne_constant {off : Nat} (h0 : off ≠ 0x000) (h1 : off ≠ 0x008) (h2 : off ≠ 0x010) :
    target off ≠ .id ∧ target off ≠ .param ∧ target off ≠ .param2 := by
  unfold target
  rw [if_neg h0, if_neg h1, if_neg h2]
  repeat' split
  all_goals simp

/-- R45: after reset everything but the three constants reads 0. -/
theorem doReset_readTarget (s : State) {t : Target} (hid : t ≠ .id) (hparam : t ≠ .param)
    (hparam2 : t ≠ .param2) : s.doReset.readTarget t = 0 := by
  cases t with
  | id => exact absurd rfl hid
  | param => exact absurd rfl hparam
  | param2 => exact absurd rfl hparam2
  | ctrl | cmd | sres | seq | reserved => rfl
  | status => simp [State.readTarget, State.statusWord, codeNumber, pathNumber]
  | used r => simp [State.readTarget, State.usedWord]
  | digit r i => simp [State.readTarget, digit]

/-- Settles O15, by what the offset names. -/
theorem afterResetEverythingReadsZero : Obligations.AfterResetEverythingReadsZero := by
  intro s off _ _ h0 h1 h2
  obtain ⟨hid, hparam, hparam2⟩ := target_ne_constant h0 h1 h2
  exact ⟨doReset_readTarget s hid hparam hparam2, rfl, rfl⟩

/-! ### Writes (R54, R59, R61) -/

/-- R54, R61: a legal write request is `MemWrite` of the word its lanes carry, and its answer. -/
theorem hostMove_write_lanes (s : State) (w : Word) {off : Nat} (hoff : off < 0x40000)
    (aligned : off % 8 = 0) : s.hostMove (.write (s.cfg.base + off) (lanesOfWord w)) =
      { s.memWrite off w with responses := .written :: s.responses } := by
  have inside : inAperture s.cfg (s.cfg.base + off) = true :=
    decide_eq_true ⟨Nat.le_add_right _ _, Nat.add_lt_add_left hoff _⟩
  have legal : legalAccess off 8 = true := by simp [legalAccess, aligned]
  obtain ⟨-, -, -, kept⟩ := writeTarget_frame s (target off) w
  simp [State.hostMove, State.busWrite, inside, legal, State.respond, State.memWrite, kept]

/-- R24, R52, R53: outside `CTRL`, `STATUS`, `CMD` and the digit windows a write is ignored. -/
theorem memWrite_ignored (s : State) (w : Word) {off : Nat} (hctrl : off ≠ 0x018)
    (hstatus : off ≠ 0x020) (hcmd : off ≠ 0x028) (outside : off < 0x1000 ∨ 0x21000 ≤ off) :
    s.memWrite off w = s := by
  unfold State.memWrite
  rcases target_cases off with ⟨_, h⟩ | ⟨_, h⟩ | ⟨_, h⟩ | ⟨_, _, _, low, high⟩ |
    h | h | h | h | h | ⟨_, h⟩ | h
  · exact absurd h hctrl
  · exact absurd h hstatus
  · exact absurd h hcmd
  · omega
  all_goals rw [h]; rfl

/-- R59, R61: what an idle write to a digit window does. -/
theorem memWrite_digit_idle (s : State) (w : Word) (r : Reg) {i : Nat} (idle : s.pend = none)
    (hi : i < 1024) : s.memWrite (0x1000 + 0x2000 * r.val + 8 * i) w =
      if i < s.cfg.maxd then s.setReg r (setDigit s.cfg (s.reg r) i (w.toNat % s.cfg.beta)) else s := by
  simp only [State.memWrite, target_digit r i hi, State.writeTarget, State.writeDigit, idle]

/-- Settles O18. The stored value is the old one with the digit replaced by `w[DB-1:0]`. -/
theorem digitWriteStoresOneDigit : Obligations.DigitWriteStoresOneDigit := by
  intro s w legal
  have hd : w.toNat % s.cfg.beta < s.cfg.beta := Nat.mod_lt _ (beta_pos s.cfg)
  refine ⟨fun off hoff aligned => hostMove_write_lanes s w hoff aligned,
    fun off _ hctrl hstatus hcmd outside => memWrite_ignored s w hctrl hstatus hcmd outside,
    fun r i idle hi => ⟨fun above => ?_, fun below => ⟨setDigit s.cfg (s.reg r) i (w.toNat % s.cfg.beta),
      ?_, digit_setDigit_self s.cfg _ i _ hd, fun j hj => digit_setDigit_of_ne s.cfg _ i j _ hd hj⟩⟩⟩
  · rw [memWrite_digit_idle s w r idle hi, if_neg (by omega)]
  · rw [memWrite_digit_idle s w r idle hi, if_pos below]
    rfl

/-! ### `USEDr` (R38) -/

/-- Settles O23: the least such `u` is `used(B[r])`, which is at most `MAXD`. -/
theorem usedRegisterReadsTheDigitCount : Obligations.UsedRegisterReadsTheDigitCount := by
  intro s r legal inRange
  have pos := Legal_digitBits_pos legal
  obtain ⟨-, -, -, -, ⟨-, hmaxd⟩, -⟩ := legal
  have atMost : used s.cfg (s.reg r) ≤ 1024 := ((used_le_iff pos _ _).mpr inRange).trans hmaxd
  refine ⟨used s.cfg (s.reg r), ?_, atMost, lt_beta_pow_used pos _, fun v => (used_le_iff pos _ v).mpr⟩
  rw [State.memRead, target_used, State.readTarget, State.usedWord, Nat.mod_eq_of_lt (by omega)]

/-! ### `STATUS` (R29 to R34) and `CTRL` (R28) -/

/-- R32: a completion code fills at most its 4 bits. -/
theorem codeNumber_lt (code : Code) : codeNumber code < 2 ^ 4 := by cases code <;> decide

/-- R33: a path fills at most its 2 bits. -/
theorem pathNumber_lt (path : MontPath) : pathNumber path < 2 ^ 2 := by cases path <;> decide

/-- R34, R61: a `STATUS` write acts by its two write-1-to-clear bits only. -/
theorem memWrite_status (s : State) (w : Word) : s.memWrite 0x020 w =
    { s with done := s.done && !w.getLsbD 1, werr := s.werr && !w.getLsbD 2 } := writeStatus_eq s w

/-- Settles O21: each field of `STATUS` is a digit group of the number that the word shows. -/
theorem statusRegister : Obligations.StatusRegister := by
  intro s w
  have hb := s.busy.toNat_le
  have hd := s.done.toNat_le
  have hw := s.werr.toNat_le
  have hc := codeNumber_lt s.err
  have hp := pathNumber_lt s.path
  obtain ⟨n, hn⟩ : ∃ n, n = s.busy.toNat + s.done.toNat * 2 + s.werr.toNat * 4 +
    codeNumber s.err * 2 ^ 4 + pathNumber s.path * 2 ^ 8 := ⟨_, rfl⟩
  have read : s.memRead 0x020 = BitVec.ofNat 64 n := hn ▸ rfl
  have small : n < 2 ^ 10 := by omega
  have wide : n < 2 ^ 64 := by omega
  rw [read]
  refine ⟨memWrite_status s w, getLsbD_ofNat_of_eq wide (by omega), getLsbD_ofNat_of_eq wide (by omega),
    getLsbD_ofNat_of_eq wide (by omega), getLsbD_ofNat_of_eq wide (b := false) ?_,
    BitVec.eq_of_toNat_eq ?_, BitVec.eq_of_toNat_eq ?_,
    fun j hj => getLsbD_ofNat_eq_false wide small hj⟩
  · rw [Bool.toNat_false]
    omega
  · rw [extract_ofNat_toNat_of_eq wide (m := codeNumber s.err) (by omega)]
    cases s.err <;> rfl
  · rw [extract_ofNat_toNat_of_eq wide (m := pathNumber s.path) (by omega)]
    cases s.path <;> rfl

/-- R28: a `CTRL` write with `SRST` clear sets `IE`. -/
theorem memWrite_ctrl_ie (s : State) (w : Word) (bit : w.getLsbD 1 = false) :
    s.memWrite 0x018 w = { s with ie := w.getLsbD 0 } := writeCtrl_ie s w bit

/-- R28: a `CTRL` write with `SRST` set resets. -/
theorem memWrite_ctrl_srst (s : State) (w : Word) (bit : w.getLsbD 1 = true) :
    s.memWrite 0x018 w = s.doReset := writeCtrl_srst s w bit

/-- Settles O22: `CTRL` shows `IE` as a number of one bit. -/
theorem controlRegister : Obligations.ControlRegister := by
  intro s w
  have hi := s.ie.toNat_le
  have read : s.memRead 0x018 = BitVec.ofNat 64 s.ie.toNat := rfl
  have wide : s.ie.toNat < 2 ^ 64 := by omega
  rw [read]
  exact ⟨memWrite_ctrl_ie s w, memWrite_ctrl_srst s w, getLsbD_ofNat_of_eq wide (by omega),
    fun j hj => getLsbD_ofNat_eq_false wide (k := 1) (by omega) hj⟩

/-! ### `ID`, `PARAM`, `PARAM2` (R25 to R27) -/

/-- R5: `HENSEL_ITERS` is 3 or 5. -/
theorem henselIters_le (c : Config) : c.henselIters ≤ 5 := by
  unfold Config.henselIters
  split <;> decide

/-- Settles O24: in a legal configuration every parameter fits its field. -/
theorem constantRegistersShowTheConfiguration : Obligations.ConstantRegistersShowTheConfiguration := by
  intro s legal
  obtain ⟨hdb, ⟨-, hwarray⟩, ⟨-, hcomba⟩, hwin, ⟨-, hmaxd⟩, -⟩ := legal
  have hiters := henselIters_le s.cfg
  obtain ⟨n, hn⟩ : ∃ n, n = s.cfg.digitBits % 2 ^ 8 + s.cfg.maxWinSize % 2 ^ 8 * 2 ^ 8 +
    s.cfg.maxd % 2 ^ 16 * 2 ^ 16 + s.cfg.maxComba % 2 ^ 16 * 2 ^ 32 + s.cfg.warray % 2 ^ 16 * 2 ^ 48 :=
    ⟨_, rfl⟩
  obtain ⟨m, hm⟩ : ∃ m, m = s.cfg.tabSize % 2 ^ 16 + 16 * 2 ^ 16 +
    s.cfg.henselIters * 2 ^ 24 := ⟨_, rfl⟩
  have param : s.memRead 0x008 = BitVec.ofNat 64 n := hn ▸ rfl
  have param2 : s.memRead 0x010 = BitVec.ofNat 64 m := hm ▸ rfl
  have hn64 : n < 2 ^ 64 := by omega
  have hm64 : m < 2 ^ 64 := by omega
  rw [param, param2]
  exact ⟨rfl, extract_ofNat_toNat_of_eq hn64 (by omega), extract_ofNat_toNat_of_eq hn64 (by omega),
    extract_ofNat_toNat_of_eq hn64 (by omega), extract_ofNat_toNat_of_eq hn64 (by omega),
    extract_ofNat_toNat_of_eq hn64 (by omega), fun htab => extract_ofNat_toNat_of_eq hm64 (by omega),
    extract_ofNat_toNat_of_eq hm64 (by omega),
    extract_ofNat_toNat_of_eq hm64 (m := s.cfg.henselIters) (by omega),
    BitVec.eq_of_toNat_eq (extract_ofNat_toNat_of_eq hm64 (m := 0) (by omega))⟩

/-! ### The interrupt output (R39, R214) -/

/-- R95: an idle `CMD` write accepts its word. -/
theorem memWrite_cmd_idle (s : State) (w : Word) (idle : s.pend = none) :
    s.memWrite 0x028 w = s.accept w := by
  change s.offerCommand w = s.accept w
  rw [State.offerCommand, idle]

/-- Settles O36: each event sets or clears `IE` or `DONE` as its own rule says. -/
theorem interruptOutputIsALevel : Obligations.InterruptOutputIsALevel := by
  intro s w
  refine ⟨rfl, fun enabled code path => ?_, fun done => ?_, ?_, ?_, fun idle => ?_, ?_, ?_⟩
  · simp [State.irq, completed, enabled]
  · rw [memWrite_ctrl_ie s 1 rfl]
    exact done
  · rw [memWrite_ctrl_ie s 0 rfl]
    rfl
  · rw [memWrite_ctrl_ie s 0 rfl]
  · simp [State.irq, memWrite_cmd_idle s w idle]
  · rw [memWrite_status]
    simp [State.irq]
  · rw [memWrite_ctrl_srst s 2 rfl]
    rfl

end Sys2Proof.Machine
end

section
/-! SUPPORT. The bus (20_memory.md R50 to R67): the byte lanes, reads, illegal accesses, writes while a
command is pending, and the step that performs a request. -/

namespace Sys2Proof

/-! ### Byte lanes (R54, R89) -/

/-- R89: the byte decoder consumes the eight lanes of one word. -/
theorem decodeBytes_lanesOfWord_append (w : Word) (rest : List Byte) :
    decodeBytes (lanesOfWord w ++ rest) = (decodeWord w).map fun i => (i, rest) := by
  have length := lanesOfWord_length w
  have enough : ¬ (lanesOfWord w ++ rest).length < 8 := by
    rw [List.length_append]
    omega
  rw [decodeBytes, if_neg enough, List.take_left' length, List.drop_left' length,
    wordOfLanes_lanesOfWord]
  cases decodeWord w <;> rfl

/-- Settles O5: lane `j` is the list's entry `j`. -/
theorem byteLanesCarryTheWord : Obligations.ByteLanesCarryTheWord := by
  refine fun w rest => ⟨fun j hj => ?_, wordOfLanes_lanesOfWord w, decodeBytes_lanesOfWord_append w rest⟩
  rw [lanesOfWord, List.getElem?_map, List.getElem?_range hj, Option.map_some]

end Sys2Proof

namespace Sys2Proof.Machine

/-! ### Which accesses are the block's, and which of them are legal (R50, R51) -/

theorem inAperture_base_add (c : Config) {off : Nat} (h : off < 0x40000) :
    inAperture c (c.base + off) = true :=
  decide_eq_true ⟨Nat.le_add_right _ _, Nat.add_lt_add_left h _⟩

theorem inAperture_eq_false {c : Config} {addr : Nat} (h : addr < c.base ∨ c.base + 0x40000 ≤ addr) :
    inAperture c addr = false :=
  decide_eq_false fun ⟨low, high⟩ => h.elim low.not_gt high.not_ge

theorem legalAccess_eq_false_iff {off size : Nat} :
    legalAccess off size = false ↔ size ≠ 8 ∨ off % 8 ≠ 0 := by
  rw [legalAccess, Bool.and_eq_false_iff, beq_eq_false_iff_ne, beq_eq_false_iff_ne]

section
variable (s : State)

/-- R50: an access outside the aperture is only recorded. -/
theorem busRead_outside {addr : Nat} (outside : inAperture s.cfg addr = false) (size : Nat) :
    s.busRead addr size = s.respond .notSelected := if_pos outside

/-- R50: the same for a write. -/
theorem busWrite_outside {addr : Nat} (outside : inAperture s.cfg addr = false) (lanes : List Byte) :
    s.busWrite addr lanes = s.respond .notSelected := if_pos outside

/-- R51, R60: a read in the aperture answers the current value, or a bus error where it is illegal. -/
theorem busRead_base_add {off : Nat} (hoff : off < 0x40000) (size : Nat) :
    s.busRead (s.cfg.base + off) size = s.respond
      (if legalAccess off size = false then .busError (zeroLanes size)
        else .data (lanesOfWord (s.memRead off))) := by
  simp only [State.busRead, inAperture_base_add s.cfg hoff, Nat.add_sub_cancel_left, Bool.true_eq_false,
    if_false, apply_ite s.respond]

/-- R51: an illegal write in the aperture answers a bus error. -/
theorem busWrite_illegal {off : Nat} {lanes : List Byte} (hoff : off < 0x40000)
    (illegal : legalAccess off lanes.length = false) :
    s.busWrite (s.cfg.base + off) lanes = s.respond (.busError []) := by
  simp only [State.busWrite, inAperture_base_add s.cfg hoff, Nat.add_sub_cancel_left, Bool.true_eq_false,
    if_false, illegal, if_true]

end

/-- Settles O17, by where the access lies and whether it reads or writes. -/
theorem illegalAccessIsABusError : Obligations.IllegalAccessIsABusError := by
  refine fun s => ⟨fun off hoff => ⟨fun size bad => ?_, fun lanes bad => ?_⟩,
    fun addr h => ⟨busRead_outside s (inAperture_eq_false h), busWrite_outside s (inAperture_eq_false h)⟩⟩
  · exact (busRead_base_add s hoff size).trans
      (congrArg s.respond (if_pos (legalAccess_eq_false_iff.mpr bad)))
  · exact busWrite_illegal s hoff (legalAccess_eq_false_iff.mpr bad)

/-! ### Legal reads (R54, R57, R60) -/

/-- R57, R60: a legal read answers the lanes of the current value. -/
theorem hostMove_read_legal (s : State) {off : Nat} (hoff : off < 0x40000) (aligned : off % 8 = 0) :
    s.hostMove (.read (s.cfg.base + off) 8) = s.respond (.data (lanesOfWord (s.memRead off))) := by
  have legal : ¬ legalAccess off 8 = false := by simp [legalAccess_eq_false_iff, aligned]
  exact (busRead_base_add s hoff 8).trans (congrArg s.respond (if_neg legal))

/-- Settles O16, by what the offset names: the control registers' own offsets evaluate, the `USEDr`, the
digit windows and the reserved offsets are the map's rules. -/
theorem legalReadReturnsTheCurrentValue : Obligations.LegalReadReturnsTheCurrentValue := by
  refine fun s => ⟨rfl, rfl, rfl, rfl, rfl, rfl, rfl, rfl, fun r => ?used, fun r i hi => ?digit,
    fun off reserved => ?reserved, fun off hoff aligned => hostMove_read_legal s hoff aligned⟩
  case used => rw [State.memRead, target_used, State.readTarget]
  case digit => rw [State.memRead, target_digit r i hi, State.readTarget, digit]
  case reserved => rw [State.memRead, target_reserved off reserved, State.readTarget]

/-! ### Writes while a command is pending (R64) -/

/-- R64: the busy hazard drops every write to `CMD` and to a digit window. -/
theorem writeTarget_hazard_busy {s : State} {w0 : Word} (busy : s.pend = some w0) {t : Target}
    (hazard : t.isHazard = true) (w : Word) : s.writeTarget t w = s.dropWrite := by
  cases t with
  | cmd => rw [State.writeTarget, State.offerCommand, busy]
  | digit r i => rw [State.writeTarget, State.writeDigit, busy]
  | _ => cases hazard

/-- Settles O19: the dropped writes are the hazard's; the others act as they do when idle. -/
theorem writesWhileBusy : Obligations.WritesWhileBusy := by
  refine fun s w0 w busy => ⟨writeTarget_hazard_busy busy rfl w, fun r i hi => ?digit, ?ctrl,
    memWrite_status s w,
    fun off _ hctrl hstatus hcmd outside => memWrite_ignored s w hctrl hstatus hcmd outside⟩
  case digit =>
    rw [State.memWrite, target_digit r i hi]
    exact writeTarget_hazard_busy busy rfl w
  case ctrl =>
    cases bit : w.getLsbD 1 with
    | true => exact memWrite_ctrl_srst s w bit
    | false => exact memWrite_ctrl_ie s w bit

/-! ### The step of the outside world (R66) -/

section
variable {s : State} {req : BusReq} {rest : List BusReq} (queue : s.hostQ = req :: rest)
  (turn : s.pend = none ∨ s.schedule.head? = some .host)
include queue turn

/-- R66: with nothing pending, or where the choice falls on it, the outside world moves. -/
theorem nextMove_eq_host : s.nextMove = .host req := by
  rw [State.nextMove, queue]
  cases hp : s.pend with
  | none => rfl
  | some w => exact if_pos (turn.resolve_left (by simp [hp]))

/-- What the move takes from the outside world: the request, and the choice where one was made. -/
theorem afterChoice_eq_of_host : s.afterChoice =
    { s with hostQ := rest, schedule := if s.pend = none then s.schedule else s.schedule.tail } := by
  rw [State.afterChoice, queue]
  cases hp : s.pend with
  | none => rfl
  | some w => exact if_pos (turn.resolve_left (by simp [hp]))

end

/-- Settles O8: the oldest request is the next move, and leaves `hostQ`. -/
theorem stepPerformsTheOldestRequest : Obligations.StepPerformsTheOldestRequest := by
  intro s req rest legal queue turn
  rw [← afterChoice_eq_of_host queue turn, step_of_legal s legal, machineMove,
    nextMove_eq_host queue turn]

/-! ### What a `STATUS` read tells (R67) -/

/-- Settles O13: bits 0 and 1 of `STATUS` show `BUSY` and `DONE`, which the invariant ties to `PEND`. -/
theorem statusReadTellsCompletion : Obligations.StatusReadTellsCompletion := by
  intro s inv
  obtain ⟨-, busy, done, -⟩ := statusRegister s 0
  rw [busy, done, inv.busy_pend]
  refine ⟨Option.isSome_eq_false_iff.trans Option.isNone_iff_eq_none, fun completed => ?_⟩
  by_contra pending
  have notDone := inv.pend_done (Option.isSome_iff_ne_none.mpr pending)
  exact Bool.false_ne_true (notDone.symm.trans completed)

end Sys2Proof.Machine
end

section
/-! SUPPORT. Command words as a whole (30_encoding.md R81 to R92): what the decoder reads in an encoded
word, that a legal word has no other command, and the words a format allows as bits under a mask. -/

namespace Sys2Proof

open Sys2Proof.Machine Sys2Proof.Claims Sys2Proof.Laws.EncodeOpcode

/-! ### The decoder on an encoded word (R81, R84) -/

/-- The format of a command (R83, R84). -/
def Instr.format : Instr → Format
  | .nop => .f0
  | .drIs2k _ => .fa
  | .drIs2kL _ => .fa
  | .montSetup _ _ => .fda
  | .montNorm _ _ => .fda
  | .barSetup _ _ => .fda
  | .drSetup _ _ => .fda
  | .drSetupL _ _ => .fda
  | .montReduce _ _ _ _ => .fdabc
  | .barReduce _ _ _ _ => .fdabc
  | .drReduce _ _ _ _ => .fdabc
  | .drReduceL _ _ _ _ => .fdabc
  | .expmod _ _ _ _ _ => .fdabcm
  | .expmodFast _ _ _ _ _ => .fdabcm
  | .rmTrials _ => .fi

/-- The per-instruction facts of R83 and R85, over all commands. -/
theorem encode_opcode_reserved (i : Instr) :
    (fieldOpc (encode i)).toNat = opcode i ∧ fieldReserved (encode i) = 0 := by
  cases i <;> exact packed _ _ _ _ _ _ _ (by decide)

theorem formatOf_encode (i : Instr) : formatOf (fieldOpc (encode i)) = some i.format := by
  rw [formatOf, (encode_opcode_reserved i).1]
  cases i <;> rfl

theorem instrOfFields_encode (i : Instr) : instrOfFields (encode i) = some i := by
  rw [instrOfFields, (encode_opcode_reserved i).1]
  cases i <;>
    simp [opcode, encode, fieldRd_packFields, fieldRa_packFields, fieldRb_packFields,
      fieldRc_packFields, fieldMode_packFields, fieldImm_packFields]

theorem unusedFieldsZero_encode (i : Instr) : unusedFieldsZero i.format (encode i) = true := by
  cases i <;>
    simp [unusedFieldsZero, Instr.format, encode, fieldRd_packFields, fieldRa_packFields,
      fieldRb_packFields, fieldRc_packFields, fieldMode_packFields, fieldImm_packFields]

/-- An encoded command is legal but for a reserved mode (R85, R87). -/
theorem decodeWord_encode (i : Instr) :
    decodeWord (encode i) = if i.wellFormed then .ok i else .error .reservedMode := by
  rw [decodeWord, formatOf_encode, instrOfFields_encode]
  simp only [(encode_opcode_reserved i).2, unusedFieldsZero_encode]
  cases i.wellFormed <;> rfl

/-- Settles O1: the mode is the only thing the decoder can refuse in an encoded word. -/
theorem decodeOfEncode : Obligations.DecodeOfEncode := fun i wf => by
  rw [decodeWord_encode, if_pos wf]

/-- Settles O4, by the encoder's side of each line; the decoder's side is O1. -/
theorem workedEncodingsDecode : Obligations.WorkedEncodingsDecode := by
  have minusOne : encode (.rmTrials (BitVec.ofInt 32 (-1))) = 0xFFFFFFFF0000000E := by decide
  exact ⟨decodeOfEncode (.montSetup 1 0) rfl, decodeOfEncode (.montReduce 3 2 0 1) rfl,
    decodeOfEncode (.expmod 5 1 2 3 0) rfl, decodeOfEncode (.expmodFast 5 1 2 3 2) rfl,
    decodeOfEncode (.rmTrials 81) rfl, minusOne ▸ decodeOfEncode (.rmTrials (BitVec.ofInt 32 (-1))) rfl,
    decodeOfEncode (.drIs2k 7) rfl, rfl, rfl, rfl, rfl, rfl, minusOne, rfl⟩

/-! ### The words of the claims -/

/-- A claim's word with a mode is the packed word (R81). -/
theorem wordOf_or_mode (opc : Nat) (rd ra rb rc : Reg) (mode : RedMode) :
    wordOf opc rd ra rb rc ||| BitVec.ofNat 64 (mode.val <<< 24) =
      packFields opc rd ra rb rc mode 0 := by
  rw [wordOf, packFields, ← BitVec.ofNat_or]
  have noImm : (0 : BitVec 32).toNat <<< 32 = 0 := rfl
  rw [noImm, Nat.zero_or]
  generalize rd.val <<< 8 = d, ra.val <<< 12 = a, rb.val <<< 16 = b, rc.val <<< 20 = c,
    mode.val <<< 24 = m
  congr 1
  ac_rfl

/-- Settles O57: modes 1 and 3 to 15 fall on the two sides of the decoder's check (R87). -/
theorem fastExpmodModeOneIsUnimplemented : Obligations.FastExpmodModeOneIsUnimplemented := by
  refine fun s rd ra rb rc => ⟨?_, exec_eq _ s, fun mode reserved => ?_⟩
  · exact (congrArg decodeWord (wordOf_or_mode 0x0D rd ra rb rc 1)).trans
      (decodeOfEncode (.expmodFast rd ra rb rc 1) rfl)
  · have illFormed : (Instr.expmodFast rd ra rb rc mode).wellFormed = false :=
      decide_eq_false (Nat.not_le.mpr reserved)
    rw [wordOf_or_mode, ← encode, decodeWord_encode, illFormed]
    rfl

/-! ### A legal word has one command (R88) -/

/-- A word whose unused fields are 0 is the encoding of the command its fields name. -/
theorem encode_of_instrOfFields {w : Word} {f : Format} {i : Instr}
    (format : formatOf (fieldOpc w) = some f) (named : instrOfFields w = some i)
    (reserved : fieldReserved w = 0) (unused : unusedFieldsZero f w = true) : encode i = w := by
  refine Eq.trans ?_ (packFields_fields w reserved)
  unfold instrOfFields at named
  split at named
  all_goals cases named
  all_goals
    next opc =>
      rw [formatOf, opc] at format
      cases format
      simp only [unusedFieldsZero, Bool.and_eq_true, beq_iff_eq] at unused
      simp only [encode, opc, unused]

theorem encode_of_decodeWord {w : Word} {i : Instr} (legal : decodeWord w = .ok i) :
    i.wellFormed = true ∧ encode i = w := by
  obtain ⟨f, format, named, reserved, unused, wf⟩ := (decodeWord_ok_iff w i).mp legal
  exact ⟨wf, encode_of_instrOfFields format named reserved unused⟩

/-- Settles O2: the encoder is a left inverse of the decoder, so the decoder is injective. -/
theorem legalWordsHaveNoAliases : Obligations.LegalWordsHaveNoAliases := by
  refine ⟨fun w i legal => encode_of_decodeWord legal, fun w w' i i' legal legal' differ same => ?_⟩
  apply differ
  calc w = encode i := (encode_of_decodeWord legal).2.symm
    _ = encode i' := congrArg encode same
    _ = w' := (encode_of_decodeWord legal').2

/-! ### The words a format allows, as bits under a mask (R84, R85) -/

/-- The bits that a format fixes: the opcode, the reserved bits and the unused fields. -/
def formatMask : Format → Word
  | .f0 => 0xFFFFFFFFFFFFFFFF
  | .fa => 0xFFFFFFFFFFFF0FFF
  | .fda => 0xFFFFFFFFFFFF00FF
  | .fdabc => 0xFFFFFFFFFF0000FF
  | .fdabcm => 0xFFFFFFFFF00000FF
  | .fi => 0x00000000FFFFFFFF

/-- The claim's row of an opcode. -/
def rowOf (opc : BitVec 8) : Option (Word × Word) :=
  (formatOf opc).map fun f => (opc.setWidth 64, formatMask f)

theorem opcodeRows_eq_filterMap :
    opcodeRows = (List.range 15).filterMap fun k => rowOf (BitVec.ofNat 8 k) := rfl

theorem opc_lt_of_formatOf {opc : BitVec 8} {f : Format} (format : formatOf opc = some f) :
    opc.toNat < 15 := by
  unfold formatOf at format
  split at format <;> cases format <;> omega

/-- The rows of the claim are the opcodes of R83, each with its format's mask. -/
theorem mem_opcodeRows_iff (row : Word × Word) : row ∈ opcodeRows ↔
    ∃ opc f, formatOf opc = some f ∧ (opc.setWidth 64, formatMask f) = row := by
  simp only [opcodeRows_eq_filterMap, List.mem_filterMap, List.mem_range, rowOf,
    Option.map_eq_some_iff]
  constructor
  · exact fun ⟨k, _, rowOfK⟩ => ⟨BitVec.ofNat 8 k, rowOfK⟩
  · rintro ⟨opc, f, format, row⟩
    refine ⟨opc.toNat, opc_lt_of_formatOf format, f, ?_⟩
    rw [BitVec.ofNat_toNat, BitVec.setWidth_eq]
    exact ⟨format, row⟩

/-- A word is determined by its fields (R81). -/
theorem word_eq_iff_fields (w v : Word) : w = v ↔
    fieldOpc w = fieldOpc v ∧ fieldReserved w = fieldReserved v ∧ fieldRd w = fieldRd v ∧
    fieldRa w = fieldRa v ∧ fieldRb w = fieldRb v ∧ fieldRc w = fieldRc v ∧
    fieldMode w = fieldMode v ∧ fieldImm w = fieldImm v := by
  refine ⟨fun same => same ▸ ⟨rfl, rfl, rfl, rfl, rfl, rfl, rfl, rfl⟩, ?_⟩
  simp only [← BitVec.toNat_inj, ← Fin.val_inj, fieldOpc_toNat, fieldRd_val, fieldRa_val, fieldRb_val,
    fieldRc_val, fieldMode_val, fieldReserved_toNat, fieldImm_toNat]
  have := w.isLt
  have := v.isLt
  omega

theorem fieldOpc_setWidth (opc : BitVec 8) : fieldOpc (opc.setWidth 64) = opc := by
  apply BitVec.eq_of_toNat_eq
  rw [fieldOpc_toNat, BitVec.toNat_setWidth_of_le (by decide), Nat.mod_eq_of_lt opc.isLt]

/-- An opcode as a word has no bit above it. -/
theorem extract_setWidth_opc (opc : BitVec 8) {lo : Nat} (above : 8 ≤ lo) (k : Nat) :
    (opc.setWidth 64).extractLsb' lo k = 0#k := by
  apply BitVec.eq_of_toNat_eq
  have small : opc.toNat < 2 ^ lo := opc.isLt.trans_le (Nat.pow_le_pow_right two_pos above)
  rw [extract_toNat, BitVec.toNat_setWidth_of_le (by decide), Nat.div_eq_of_lt small]
  simp

/-- Under a format's mask a word shows its opcode exactly when R85's fields are 0. -/
theorem and_formatMask_eq_iff (w : Word) (f : Format) (opc : BitVec 8) :
    w &&& formatMask f = opc.setWidth 64 ↔
      fieldOpc w = opc ∧ fieldReserved w = 0 ∧ unusedFieldsZero f w = true := by
  have ones8 (x : BitVec 8) : x &&& 255#8 = x := BitVec.and_allOnes
  have ones4 (x : BitVec 4) : x &&& 15#4 = x := BitVec.and_allOnes
  have ones32 (x : BitVec 32) : x &&& 4294967295#32 = x := BitVec.and_allOnes
  rw [word_eq_iff_fields, fieldOpc_setWidth]
  cases f <;>
    simp [-BitVec.toFin_extractLsb', fieldOpc, fieldRd, fieldRa, fieldRb, fieldRc, fieldMode,
      fieldReserved, fieldImm, BitVec.extractLsb'_and, extract_setWidth_opc, formatMask, ones8, ones4,
      ones32, unusedFieldsZero, and_assoc]

/-- An opcode of the table names a command, which is well formed unless a reserved mode spoils it. -/
theorem exists_instrOfFields {w : Word} {f : Format} (format : formatOf (fieldOpc w) = some f) :
    ∃ i, instrOfFields w = some i ∧
      (i.wellFormed = true ↔ (fieldOpc w = 0x0D → (fieldMode w).val ≤ 2)) := by
  rw [← BitVec.toNat_inj]
  unfold formatOf at format
  split at format
  all_goals cases format
  all_goals
    next opc => simp [instrOfFields, opc, Instr.wellFormed]

/-- R85 in the decoder's own terms. -/
theorem exists_decodeWord_ok_iff (w : Word) : (∃ i, decodeWord w = .ok i) ↔
    ∃ f, formatOf (fieldOpc w) = some f ∧ fieldReserved w = 0 ∧ unusedFieldsZero f w = true ∧
      (fieldOpc w = 0x0D → (fieldMode w).val ≤ 2) := by
  simp only [decodeWord_ok_iff]
  constructor
  · rintro ⟨i, f, format, named, reserved, unused, wf⟩
    obtain ⟨j, named', mode⟩ := exists_instrOfFields format
    obtain rfl : i = j := Option.some.inj (named.symm.trans named')
    exact ⟨f, format, reserved, unused, mode.mp wf⟩
  · rintro ⟨f, format, reserved, unused, mode⟩
    obtain ⟨i, named, wf⟩ := exists_instrOfFields format
    exact ⟨i, f, format, named, reserved, unused, wf.mpr mode⟩

/-- Settles O3: a row's mask fixes what the decoder checks. -/
theorem legalWordsFitTheirFormat : Obligations.LegalWordsFitTheirFormat := by
  intro w
  have isFast (opc : BitVec 8) : opc.setWidth 64 = (0xD : Word) ↔ opc = 0x0D :=
    ⟨fun same => (fieldOpc_setWidth opc).symm.trans (congrArg fieldOpc same), fun same => same ▸ rfl⟩
  rw [exists_decodeWord_ok_iff]
  constructor
  · rintro ⟨f, format, reserved, unused, mode⟩
    exact ⟨_, (mem_opcodeRows_iff _).mpr ⟨_, f, format, rfl⟩,
      (and_formatMask_eq_iff w f _).mpr ⟨rfl, reserved, unused⟩, fun fast => mode ((isFast _).mp fast)⟩
  · rintro ⟨row, member, shown, mode⟩
    obtain ⟨opc, f, format, rfl⟩ := (mem_opcodeRows_iff row).mp member
    obtain ⟨rfl, reserved, unused⟩ := (and_formatMask_eq_iff w f opc).mp shown
    exact ⟨f, format, reserved, unused, fun fast => mode ((isFast _).mpr fast)⟩

end Sys2Proof
end

section
/-! SUPPORT. The life of a command (40_system.md R93 to R106): acceptance, the engine step and its one
completion, what a command's outcome depends on, and that a pending command is executed. -/

namespace Sys2Proof.Machine

open Sys2Proof.Claims

/-! ### Acceptance (R95) -/

/-- R64, R95: a `CMD` write is dropped while a command is pending. -/
theorem memWrite_cmd_busy {s : State} (w : Word) (busy : s.pend ≠ none) :
    s.memWrite 0x028 w = s.dropWrite := by
  obtain ⟨_, pending⟩ := Option.ne_none_iff_exists'.mp busy
  exact writeTarget_hazard_busy pending (t := .cmd) rfl w

/-- Settles O20: `OfferCommand` by whether a command is pending. -/
theorem commandWriteIsAcceptedOrDropped : Obligations.CommandWriteIsAcceptedOrDropped :=
  fun s w => ⟨memWrite_cmd_idle s w, memWrite_cmd_busy w⟩

/-! ### The engine step (R93, R96, R100) -/

section
variable {s : State} {w : Word} (pending : s.pend = some w)
  (turn : s.hostQ = [] ∨ s.schedule.head? ≠ some .host)
include pending turn

/-- R66: with no request waiting, or where the choice does not fall on the outside world, the engine
moves. -/
theorem nextMove_eq_engine : s.nextMove = .engine w := by
  rw [State.nextMove, pending]
  cases queue : s.hostQ with
  | nil => rfl
  | cons req rest => exact if_neg (turn.resolve_left (by simp [queue]))

/-- What the engine's move takes from the outside world: the choice, where one was made. -/
theorem afterChoice_eq_of_engine :
    s.afterChoice = if s.hostQ = [] then s else { s with schedule := s.schedule.tail } := by
  rw [State.afterChoice, pending]
  cases queue : s.hostQ with
  | nil => rfl
  | cons req rest => exact if_neg (turn.resolve_left (by simp [queue]))

/-- The engine's step is the decode check of the pending word and its command. -/
theorem step_eq_execWord (legal : s.cfg.Legal) : step s =
    execWord w (if s.hostQ = [] then s else { s with schedule := s.schedule.tail }) := by
  rw [← afterChoice_eq_of_engine pending turn, step_of_legal s legal, machineMove,
    nextMove_eq_engine pending turn]

end

/-- Settles O6: the engine's step on a word that decodes. -/
theorem stepRunsThePendingCommand : Obligations.StepRunsThePendingCommand := by
  intro s w i legal pending decoded turn
  rw [step_eq_execWord pending turn legal, execWord, decoded]

/-- Settles O7: the engine's step on a word that does not decode. -/
theorem illegalWordCompletesWithIllegalCommand :
    Obligations.IllegalWordCompletesWithIllegalCommand := by
  intro s w e legal pending illegal turn
  rw [step_eq_execWord pending turn legal, execWord, illegal]
  rfl

/-! ### Every step goes on, and an engine step is one completion (R99, R206, R212) -/

/-- R5, R44: the configuration is constant. -/
theorem step_cfg {s t : State} (legal : s.cfg.Legal) (ht : step s = .next t) : t.cfg = s.cfg := by
  cases hm : s.nextMove with
  | idle => rw [step_idle legal hm ht]
  | engine w =>
    obtain ⟨out, rfl⟩ := step_engine_finish legal hm ht
    obtain ⟨cfg, -⟩ := finish_frame s.afterChoice out
    rw [cfg, afterChoice_cfg]
  | host req =>
    obtain ⟨cfg, -⟩ := hostMove_frame s.afterChoice req
    rw [step_host legal hm ht, cfg, afterChoice_cfg]

/-- Settles O10: no move of a legal configuration stops the machine or changes the configuration. -/
theorem everyStepGoesOn : Obligations.EveryStepGoesOn := by
  intro s legal
  obtain ⟨t, next⟩ := exists_step_eq_next_of_legal s legal
  exact ⟨t, next, step_cfg legal next⟩

/-- Settles O25: the engine's step is the end of some command, which completes and leaves the rest. -/
theorem engineStepEndsInOneCompletion : Obligations.EngineStepEndsInOneCompletion := by
  intro s t w legal hm ht
  obtain ⟨out, rfl⟩ := step_engine_finish legal hm ht
  obtain ⟨done, busy, pend, seq, path⟩ := finish_completes s.afterChoice out
  obtain ⟨cfg, ie, werr, cmd, hostQ, -, responses⟩ := finish_frame s.afterChoice out
  have irq : (s.afterChoice.finish out).irq = s.ie := by
    rw [State.irq, done, ie, afterChoice_ie, Bool.and_true]
  simp only [afterChoice_seq, afterChoice_werr, afterChoice_ie, afterChoice_cmd, afterChoice_cfg,
    afterChoice_hostQ_of_engine s w hm, afterChoice_responses] at seq werr ie cmd cfg hostQ responses
  exact ⟨done, busy, pend, seq, irq, werr, ie, cmd, cfg, hostQ, responses, path⟩

/-! ### `NOP` (R104) -/

/-- Settles O37: the decoder reads `NOP` in the one word that encodes it. -/
theorem nopCompletes : Obligations.NopCompletes := by
  have encoded : encode .nop = 0 := rfl
  refine ⟨fun w => ⟨fun decoded => ?_, fun zero => ?_⟩, exec_eq .nop⟩
  · exact (encode_of_decodeWord decoded).2.symm.trans encoded
  · rw [zero, ← encoded]
    exact decodeOfEncode .nop rfl

/-! ### What the outcome of a command depends on (R106) -/

/-- The rule of a command reads the configuration and the command's source registers only. -/
theorem commandRule_congr {i : Instr} {s s' : State} (cfg : s.cfg = s'.cfg)
    (sources : ∀ r ∈ sourceRegs i, s.reg r = s'.reg r) : commandRule i s = commandRule i s' := by
  cases i with
  | nop | rmTrials _ => rfl
  | montSetup _ ra | montNorm _ ra | barSetup _ ra | drIs2k ra | drIs2kL ra | drSetup _ ra
  | drSetupL _ ra =>
    have hra := sources ra (by simp [sourceRegs])
    simp only [commandRule, cfg, hra]
  | montReduce _ ra rb rc | barReduce _ ra rb rc | drReduce _ ra rb rc | drReduceL _ ra rb rc
  | expmod _ ra rb rc _ | expmodFast _ ra rb rc _ =>
    have hra := sources ra (by simp [sourceRegs])
    have hrb := sources rb (by simp [sourceRegs])
    have hrc := sources rc (by simp [sourceRegs])
    simp only [commandRule, State.regDigit0, cfg, hra, hrb, hrc]

/-! ### The codes that a rule raises (R202, R204, R209) -/

section
variable {c : Config} {code : Code}

theorem montSetup_error {n : Nat} (raised : montSetup c n = .error code) :
    code = .invalidArgument := by
  rw [montSetup] at raised
  split at raised <;> cases raised
  rfl

theorem barSetup_error {p : Nat} (raised : barSetup c p = .error code) : code = .divisionByZero := by
  rw [barSetup] at raised
  split at raised <;> cases raised
  rfl

theorem barReduce_error {x m mu : Nat} (raised : barReduce c x m mu = .error code) :
    code = .invalidArgument := by
  rw [barReduce] at raised
  split at raised <;> cases raised
  rfl

theorem checkedRed2k_error {a n d : Nat} {single : Bool}
    (raised : checkedRed2k a n d single = .error code) : code = .invalidArgument := by
  rw [checkedRed2k] at raised
  split at raised <;> cases raised
  rfl

theorem expmodValue_error {g x p : Nat} {mode : RedMode}
    (raised : expmodValue c g x p mode = .error code) : code = .divisionByZero := by
  unfold expmodValue at raised
  split at raised
  · cases setup : barSetup c p with
    | ok mu => simp [setup] at raised
    | error e =>
      rw [← barSetup_error setup]
      simpa [setup] using raised.symm
  · split at raised <;> cases raised
    rfl

theorem expmodMontgomery_error {g x p : Nat} (raised : expmodMontgomery c g x p = .error code) :
    code = .invalidArgument := by
  unfold expmodMontgomery at raised
  cases setup : montSetup c p with
  | ok rho => simp [setup] at raised
  | error e =>
    rw [← montSetup_error setup]
    simpa [setup] using raised.symm

theorem expmodDiminished_error {g x p : Nat} (raised : expmodDiminished c g x p = .error code) :
    code = .divisionByZero := by
  rw [expmodDiminished] at raised
  split at raised <;> cases raised
  rfl

theorem expmodFastValue_error {g x p : Nat} {mode : RedMode}
    (raised : expmodFastValue c g x p mode = .error code) :
    code = if mode = 1 then .unimplemented else if mode = 0 then .invalidArgument
      else if mode = 2 then .divisionByZero else .illegalCommand := by
  unfold expmodFastValue at raised
  split_ifs at raised ⊢
  · cases raised
    rfl
  · exact expmodMontgomery_error raised
  · exact expmodDiminished_error raised
  · cases raised
    rfl

end

theorem intoReg_eq_error_iff {rd : Reg} {v : Except Code Nat} {code : Code} :
    intoReg rd v = .error code ↔ v = .error code := by
  cases v <;> simp

/-- R100: what a rule raises is an error. -/
theorem commandRule_error_ne_ok {i : Instr} {s : State} {code : Code}
    (raised : commandRule i s = .error code) : code ≠ .ok := by
  cases i with
  | nop | drIs2k _ | drIs2kL _ | rmTrials _ | montNorm _ _ | drSetup _ _ | drSetupL _ _ => cases raised
  | montReduce _ ra rb rc =>
    rw [commandRule] at raised
    split at raised <;> cases raised
    nofun
  | montSetup _ _ => simp [montSetup_error (intoReg_eq_error_iff.mp raised)]
  | barSetup _ _ => simp [barSetup_error (intoReg_eq_error_iff.mp raised)]
  | barReduce _ _ _ _ => simp [barReduce_error (intoReg_eq_error_iff.mp raised)]
  | drReduce _ _ _ _ | drReduceL _ _ _ _ =>
    simp [checkedRed2k_error (intoReg_eq_error_iff.mp raised)]
  | expmod _ _ _ _ _ => simp [expmodValue_error (intoReg_eq_error_iff.mp raised)]
  | expmodFast _ ra rb rc mode =>
    rw [commandRule] at raised
    cases value : expmodFastValue s.cfg (s.reg ra) (s.reg rb) (s.reg rc) mode with
    | ok r => simp [value, Except.map] at raised
    | error e =>
      obtain rfl : e = code := by simpa [value, Except.map] using raised
      rw [expmodFastValue_error value]
      split_ifs <;> nofun

/-! ### The results of a command, by its kind -/

/-- A command with a destination gives a value for it or raises a code. -/
theorem commandRule_of_destReg {i : Instr} {rd : Reg} (dest : destReg i = some rd) (s : State) :
    (∃ code, commandRule i s = .error code) ∨
    ∃ v path, commandRule i s = .ok (.register rd v, path) := by
  cases i with
  | nop | drIs2k _ | drIs2kL _ | rmTrials _ => cases dest
  | montReduce _ ra rb rc =>
    cases dest
    by_cases even : s.reg rb % 2 = 0
    · exact .inl ⟨_, if_pos even⟩
    · exact .inr ⟨_, _, if_neg even⟩
  | expmodFast _ _ _ _ _ =>
    cases dest
    exact map_register_cases rd _
  | montSetup _ _ | montNorm _ _ | barSetup _ _ | barReduce _ _ _ _ | drSetup _ _ | drSetupL _ _
  | drReduce _ _ _ _ | drReduceL _ _ _ _ | expmod _ _ _ _ _ =>
    cases dest
    exact (intoReg_cases rd _).imp_right fun ⟨v, e⟩ => ⟨v, _, e⟩

/-- R36: a command with a scalar result always gives one. -/
theorem commandRule_of_writesSres {i : Instr} (scalar : writesSres i = true) (s : State) :
    ∃ w, commandRule i s = .ok (.scalar w, .unused) := by
  cases i with
  | drIs2k _ | drIs2kL _ | rmTrials _ => exact ⟨_, rfl⟩
  | _ => cases scalar

section
variable {s s' : State}

/-- R99: the code and the path of a completion come from the rule's outcome and the capacity. -/
theorem finish_err_path_congr (cfg : s.cfg = s'.cfg) (out : Except Code (CmdResult × MontPath)) :
    (s.finish out).err = (s'.finish out).err ∧ (s.finish out).path = (s'.finish out).path := by
  rcases out with code | ⟨_ | ⟨rd, v⟩ | w, path⟩
  · exact ⟨rfl, rfl⟩
  · exact ⟨rfl, rfl⟩
  · cases fit : fits s.cfg v with
    | true =>
      rw [finish_register_of_fits _ _ _ _ fit, finish_register_of_fits _ _ _ _ (cfg ▸ fit)]
      exact ⟨rfl, rfl⟩
    | false =>
      rw [finish_register_of_not_fits _ _ _ _ fit, finish_register_of_not_fits _ _ _ _ (cfg ▸ fit)]
      exact ⟨rfl, rfl⟩
  · exact ⟨rfl, rfl⟩

/-- R97: a register result that completes with OK is what its register holds. -/
theorem finish_register_of_ok {rd : Reg} {v : Nat} {path : MontPath}
    (ok : (s.finish (.ok (.register rd v, path))).err = .ok) :
    (s.finish (.ok (.register rd v, path))).reg rd = v := by
  cases fit : fits s.cfg v with
  | true => simp [finish_register_of_fits _ _ _ _ fit]
  | false => simp [finish_register_of_not_fits _ _ _ _ fit] at ok

end

/-- Settles O29: the rule's outcome is the same in both states, and so is what a completion makes of
it. -/
theorem commandDependsOnItsOperandsOnly : Obligations.CommandDependsOnItsOperandsOnly := by
  intro i s s' t t' cfg sources ht ht'
  obtain rfl := (exec_next_iff i s t).mp ht
  obtain rfl := (exec_next_iff i s' t').mp ht'
  rw [← commandRule_congr cfg sources]
  obtain ⟨err, path⟩ := finish_err_path_congr cfg (commandRule i s)
  refine ⟨err, path, fun ok => ⟨fun r dest => ?_, fun scalar => ?_⟩⟩
  · have ok' := err.symm.trans ok
    rcases commandRule_of_destReg dest s with ⟨code, raised⟩ | ⟨v, p, result⟩
    · rw [raised] at ok
      exact absurd ok (commandRule_error_ne_ok raised)
    · rw [result] at ok ok' ⊢
      rw [finish_register_of_ok ok, finish_register_of_ok ok']
  · obtain ⟨w, result⟩ := commandRule_of_writesSres scalar s
    rw [result]
    rfl

/-! ### While a command is pending (R63, R93, R94) -/

/-- R63, R64: while a command is pending, a move of the outside world that is no reset leaves the
registers, `PEND`, `CMD`, `BUSY` and the latest completion's results. -/
theorem hostMove_of_pending {s : State} {w : Word} (pending : s.pend = some w) {req : BusReq}
    (noReset : isResetReq s.cfg req = false) :
    (s.hostMove req).pend = s.pend ∧ (s.hostMove req).b = s.b ∧ (s.hostMove req).cmd = s.cmd ∧
    (s.hostMove req).busy = s.busy ∧ (s.hostMove req).seq = s.seq ∧ (s.hostMove req).err = s.err ∧
    (s.hostMove req).sres = s.sres := by
  obtain ⟨u, rs, effect, e⟩ := hostMove_effect s req
  rw [e]
  cases effect with
  | reset resets => simp [noReset] at resets
  | accept idle | digit _ _ idle => simp [pending] at idle
  | enable | clear | drop | nothing => exact ⟨rfl, rfl, rfl, rfl, rfl, rfl, rfl⟩

/-- Settles O30: the step of the outside world is its move, which the busy hazard restrains. -/
theorem operandsAreStableWhilePending : Obligations.OperandsAreStableWhilePending := by
  intro s t w req legal pending hm noReset ht
  have stable := hostMove_of_pending (s := s.afterChoice) (by simpa using pending)
    (by simpa using noReset)
  rw [← step_host legal hm ht] at stable
  simpa [pending] using stable

/-- A step of the outside world while a command is pending uses up its oldest request and the choice
that let it move. -/
theorem step_host_of_pending {s t : State} {w : Word} {req : BusReq} (legal : s.cfg.Legal)
    (pending : s.pend = some w) (hm : s.nextMove = .host req) (ht : step s = .next t) :
    s.hostQ = req :: t.hostQ ∧ s.schedule = .host :: t.schedule := by
  obtain ⟨rest, queue, left, choice⟩ := nextMove_host s req hm
  obtain ⟨-, hostQ, schedule⟩ := hostMove_frame s.afterChoice req
  rw [step_host legal hm ht, hostQ, schedule, left]
  exact ⟨queue, choice.resolve_left (by simp [pending])⟩

/-- While a command is pending some agent moves. -/
theorem nextMove_of_pending {s : State} {w : Word} (pending : s.pend = some w) :
    s.nextMove = .engine w ∨ ∃ req, s.nextMove = .host req := by
  by_cases turn : s.hostQ = [] ∨ s.schedule.head? ≠ some .host
  · exact .inl (nextMove_eq_engine pending turn)
  · obtain ⟨waiting, host⟩ := not_or.mp turn
    obtain ⟨req, rest, queue⟩ := List.exists_cons_of_ne_nil waiting
    exact .inr ⟨req, nextMove_eq_host queue (.inr (not_not.mp host))⟩

/-- A run whose first step answers a next state goes on from there. -/
theorem run_succ {s u : State} (next : step s = .next u) (k : Nat) :
    Host.Core.run Sys2Proof.core (k + 1) s = Host.Core.run Sys2Proof.core k u := by
  have coreNext : Sys2Proof.core.step s = .next u := next
  simp only [Host.Core.run, coreNext]

/-- Settles O31, by induction on the choices that are left: each step while the command is pending is its
completion, a reset, or a move of the outside world that uses up a choice. -/
theorem pendingCommandIsEventuallyExecuted : Obligations.PendingCommandIsEventuallyExecuted := by
  intro s w legal pending
  induction choices : s.schedule.length using Nat.strong_induction_on generalizing s with
  | _ n ih =>
    obtain ⟨t, next⟩ := exists_step_eq_next_of_legal s legal
    rcases nextMove_of_pending pending with hm | ⟨req, hm⟩
    · obtain ⟨done, -, idle, seq, -⟩ := engineStepEndsInOneCompletion s t w legal hm next
      exact ⟨1, t, by omega, run_succ next 0, idle, fun _ => ⟨seq, done⟩⟩
    · obtain ⟨queue, choice⟩ := step_host_of_pending legal pending hm next
      have fewer : t.schedule.length + 1 = n := by rw [← choices, choice, List.length_cons]
      cases resets : isResetReq s.cfg req with
      | true =>
        obtain ⟨rs, reset⟩ := hostMove_of_resets s.afterChoice req (by simpa using resets)
        refine ⟨1, t, by omega, run_succ next 0, ?_, fun noReset => ?_⟩
        · rw [step_host legal hm next, reset]
          rfl
        · simp [noReset req (by simp [queue])] at resets
      | false =>
        obtain ⟨pending', -, -, -, seq, -⟩ :=
          operandsAreStableWhilePending s t w req legal pending hm resets next
        have cfg := step_cfg legal next
        obtain ⟨k, u, bound, run, idle, counted⟩ :=
          ih _ (by omega) t (cfg ▸ legal) pending' rfl
        refine ⟨k + 1, u, by omega, (run_succ next k).trans run, idle, fun noReset => ?_⟩
        rw [← seq]
        exact counted fun req' later => by
          rw [cfg]
          exact noReset req' (queue ▸ List.mem_cons_of_mem req later)

end Sys2Proof.Machine
end

section
/-! SUPPORT. The Montgomery commands (41_montgomery.md R111 to R122): what each of them writes, and the
completions of a rule's outcome in the words of the claims. -/

namespace Sys2Proof.Machine

open Sys2Proof.Claims

/-! ### A command's word and its completions, in the words of the claims -/

/-- A claim's word is the packed word without mode and immediate (R81). -/
theorem wordOf_eq_packFields (opc : Nat) (rd ra rb rc : Reg) :
    wordOf opc rd ra rb rc = packFields opc rd ra rb rc 0 0 :=
  BitVec.or_zero.symm.trans (wordOf_or_mode opc rd ra rb rc 0)

/-- A well-formed command without mode and immediate is decoded from its claim's word (R83, R85). -/
theorem decodeWord_wordOf {i : Instr} {opc : Nat} {rd ra rb rc : Reg} (wf : i.wellFormed = true)
    (encoded : encode i = packFields opc rd ra rb rc 0 0) :
    decodeWord (wordOf opc rd ra rb rc) = .ok i := by
  rw [wordOf_eq_packFields, ← encoded, decodeOfEncode i wf]

section
variable {i : Instr} {s : State} {rd : Reg} {v : Nat} {path : MontPath} {code : Code}

/-- R97: a register result that fits is written, and the command completes with OK. -/
theorem exec_of_register_of_fits (result : commandRule i s = .ok (.register rd v, path))
    (fit : fits s.cfg v = true) : exec i s = .next (okReg s rd v path) := by
  rw [exec_eq, result, finish_register_of_fits _ _ _ _ fit]
  rfl

/-- R97: a register result that does not fit completes with `OUT_OF_MEMORY`. -/
theorem exec_of_register_of_not_fits (result : commandRule i s = .ok (.register rd v, path))
    (unfit : fits s.cfg v = false) : exec i s = .next (failed s .outOfMemory) := by
  rw [exec_eq, result, finish_register_of_not_fits _ _ _ _ unfit]
  rfl

/-- R98, R100: a command completes with the code that its rule raises. -/
theorem exec_of_error (raised : commandRule i s = .error code) : exec i s = .next (failed s code) := by
  rw [exec_eq, raised, finish_error, State.complete, if_neg (commandRule_error_ne_ok raised)]
  rfl

end

/-! ### `MONT_SETUP` (R111) -/

/-- R112: no two digits are negated inverses of the same odd digit. -/
theorem negInverse_unique {c : Config} {n0 rho rho' : Nat} (odd : n0 % 2 = 1)
    (hrho : (rho * n0 + 1) % c.beta = 0) (hrho' : (rho' * n0 + 1) % c.beta = 0)
    (lt : rho < c.beta) (lt' : rho' < c.beta) : rho' = rho := by
  have coprime : c.beta.Coprime n0 := by simpa using coprime_beta_pow c n0 1 odd
  have products : rho' * n0 ≡ rho * n0 [MOD c.beta] :=
    Nat.ModEq.add_right_cancel' 1 (hrho'.trans hrho.symm)
  exact (products.cancel_right_of_coprime coprime).eq_of_lt_of_lt lt' lt

/-- R112: a value that `MontSetup` returns is the negated inverse of the low digit. -/
theorem negInverse_of_montSetup {c : Config} (legal : c.Legal) {n rho : Nat}
    (setup : montSetup c n = .ok rho) : (rho * digit c n 0 + 1) % c.beta = 0 := by
  rcases Nat.mod_two_eq_zero_or_one (digit c n 0) with even | odd
  · rw [montSetup_even c n even] at setup
    cases setup
  · obtain ⟨rho', setup', -, -, inverse⟩ := montSetup_odd legal n odd
    cases setup.symm.trans setup'
    exact inverse

/-- Settles O38, by the parity of the low digit. -/
theorem montSetupGivesTheNegatedInverse : Obligations.MontSetupGivesTheNegatedInverse := by
  refine fun s rd ra legal => ⟨decodeWord_wordOf rfl rfl, fun odd => ?_, fun even => ?_⟩
  · obtain ⟨rho, setup, pos, lt, inverse⟩ := montSetup_odd legal (s.reg ra) odd
    have result : commandRule (.montSetup rd ra) s = .ok (.register rd rho, .unused) :=
      congrArg (intoReg rd) setup
    exact ⟨rho, exec_of_register_of_fits result (fits_of_le_beta legal lt.le), pos, lt, inverse,
      fun rho' lt' inverse' => negInverse_unique odd inverse inverse' lt lt'⟩
  · exact exec_of_error (congrArg (intoReg rd) (montSetup_even s.cfg (s.reg ra) even))

/-! ### `MONT_NORM` (R113 to R115) -/

/-- R114: `MONT_NORM` writes a normalization that fits. -/
theorem exec_montNorm {s : State} {rd ra : Reg} {v : Nat} (value : montNorm s.cfg (s.reg ra) = v)
    (fit : fits s.cfg v = true) : exec (.montNorm rd ra) s = .next (okReg s rd v .unused) :=
  exec_of_register_of_fits (congrArg (intoReg rd ∘ .ok) value) fit

/-- R113, R115: the normalization of a multi-digit power of two, by whether its top digit is full. -/
theorem montNorm_two_pow_eq {c : Config} (legal : c.Legal) {j : Nat} (multi : c.digitBits ≤ j) :
    montNorm c (2 ^ j) = if (j + 1) % c.digitBits = 0 then 0 else 2 ^ j := by
  split
  · next full => exact montNorm_two_pow_full legal j multi full
  · next partly => exact montNorm_two_pow legal j multi partly

/-- Settles O39: each normalization is `β` or at most the operand, so it fits. -/
theorem montNormGivesTheRadixResidue : Obligations.MontNormGivesTheRadixResidue := by
  intro s rd ra legal bound
  have fits_of_le : ∀ v, v ≤ s.reg ra → fits s.cfg v = true := fun v le =>
    fits_of_lt legal (le.trans_lt bound)
  refine ⟨decodeWord_wordOf rfl rfl, fun two_le noPower => ?_, fun j multi power => ?_,
    fun one => ?_, fun zero => ?_⟩
  · exact exec_montNorm (montNorm_eq_mod legal _ two_le noPower)
      (fits_of_le _ (Nat.mod_lt _ (by omega)).le)
  · refine exec_montNorm (by rw [power, montNorm_two_pow_eq legal multi]) (fits_of_le _ ?_)
    split <;> omega
  · exact exec_montNorm (by rw [one, montNorm_one _ legal]) (fits_of_le 1 one.ge)
  · exact exec_montNorm (by rw [zero, montNorm_zero]) (fits_of_le_beta legal le_rfl)

/-! ### `MONT_REDUCE` (R116 to R122) -/

/-- R120: for an odd modulus the rule gives the value of R116 with its path. -/
theorem commandRule_montReduce_odd {s : State} {rb : Reg} (odd : s.reg rb % 2 = 1) (rd ra rc : Reg) :
    commandRule (.montReduce rd ra rb rc) s =
      .ok (.register rd (montReduceValue s.cfg (s.reg ra) (s.reg rb) (s.regDigit0 rc)),
        montReducePath s.cfg (s.reg ra) (s.reg rb)) :=
  if_neg (by omega)

/-- R118, R119: the path of a reduction that completes with OK. -/
theorem montReducePath_eq (c : Config) (x n : Nat) : montReducePath c x n =
    if 2 * used c n + 1 < c.warray ∧ used c x ≤ c.warray ∧ used c n < c.maxComba then .comba
    else .baseline := by
  simp only [montReducePath, combaSelected, decide_eq_true_eq]

/-- Settles O40, by the modulus's parity and the capacity. -/
theorem montReduceCompletes : Obligations.MontReduceCompletes := by
  refine fun s rd ra rb rc => ⟨decodeWord_wordOf rfl rfl, fun even => ?_, fun odd => ?_⟩
  · exact exec_of_error (if_pos even)
  · have result := commandRule_montReduce_odd odd rd ra rc
    refine ⟨fun fit => ?_, fun unfit => ?_⟩
    · rw [← montReducePath_eq]
      exact exec_of_register_of_fits result ((fits_iff _ _).mpr fit)
    · exact exec_of_register_of_not_fits result (decide_eq_false unfit.not_ge)

/-- Settles O41: `x < n²` is below `n β^k`, the range of the reduction. -/
theorem montReduceIsMontgomeryReduction : Obligations.MontReduceIsMontgomeryReduction := by
  intro s rd ra rb rc legal bound odd setup square
  have inverse := negInverse_of_montSetup legal setup
  have inRange : s.reg ra < s.reg rb * s.cfg.beta ^ used s.cfg (s.reg rb) :=
    square.trans_le (Nat.mul_le_mul_left _ (lt_beta_pow_used (Legal_digitBits_pos legal) _).le)
  obtain ⟨reduced, congruent⟩ := montReduceValue_spec legal (s.reg ra) (s.reg rb) _ inverse inRange
  exact ⟨_, _, exec_of_register_of_fits (commandRule_montReduce_odd odd rd ra rc)
    (fits_of_lt legal (reduced.trans bound)), reduced, congruent⟩

/-- Settles O42: the rounds add less than `n β^k` to the low `2k + 1` digits. -/
theorem montReduceStaysBounded : Obligations.MontReduceStaysBounded := fun c x n rho legal _ =>
  ⟨montReduceValue_lt legal x n rho, montReduceValue_mod c x n rho⟩

/-- Settles O43: the normalization is `β^k` modulo `n`, which the reduction divides out again. -/
theorem montgomeryRoundTrip : Obligations.MontgomeryRoundTrip := by
  intro c x n rho legal odd three_le setup
  have inverse := negInverse_of_montSetup legal setup
  have inRange : x * montNorm c n % n < n * c.beta ^ used c n :=
    (Nat.mod_lt _ (by omega)).trans_le (Nat.le_mul_of_pos_right n (Nat.pow_pos (beta_pos c)))
  refine montReduceValue_unique legal _ x n rho odd inverse inRange ?_
  rw [Nat.mod_mod, montNorm_odd legal n odd (by omega), Nat.mul_mod_mod]

end Sys2Proof.Machine
end

section
/-! SUPPORT. The Barrett commands (42_barrett.md R125 to R133): what each of them writes, and step 9 of
R130 as the loop that the rule describes. -/

namespace Sys2Proof.Machine

open Sys2Proof.Claims

/-! ### `BAR_SETUP` (R125 to R127) -/

/-- R126: the quotient fits in a register unless its digits pass `MAXD`. -/
theorem fits_barSetup_iff {c : Config} (legal : c.Legal) {p : Nat} (nonzero : p ≠ 0) :
    fits c (c.beta ^ (2 * used c p) / p) = true ↔
      ¬ (c.maxd < used c p + 1 ∨ (c.maxd < used c p + 2 ∧ p = c.beta ^ (used c p - 1))) := by
  rw [fits_iff, barSetup_used legal p nonzero]
  split <;> omega

/-- R125, R127: for a positive operand the rule gives the quotient. -/
theorem commandRule_barSetup {s : State} {ra : Reg} (nonzero : s.reg ra ≠ 0) (rd : Reg) :
    commandRule (.barSetup rd ra) s =
      .ok (.register rd (s.cfg.beta ^ (2 * used s.cfg (s.reg ra)) / s.reg ra), .unused) :=
  congrArg (intoReg rd) (if_neg nonzero)

/-- Settles O44, by the operand and by whether its quotient fits. -/
theorem barrettSetupGivesTheQuotient : Obligations.BarrettSetupGivesTheQuotient := by
  refine fun s rd ra legal => ⟨decodeWord_wordOf rfl rfl, fun zero => ?_, fun nonzero => ?_⟩
  · exact exec_of_error (congrArg (intoReg rd) (if_pos zero))
  · have result := commandRule_barSetup nonzero rd
    have fit := fits_barSetup_iff legal nonzero
    exact ⟨fun short => exec_of_register_of_fits result (fit.mpr short), fun long =>
      exec_of_register_of_not_fits result (Bool.eq_false_iff.mpr fun fitted => fit.mp fitted long)⟩

/-! ### Step 9 of `BAR_REDUCE` (R130, R133) -/

/-- Repeated subtraction of a positive `m` from `x` ends with the remainder after `x / m` passes. -/
theorem subLoop_div_mod {m : Nat} (pos : 0 < m) (x : Nat) : SubLoop m (x / m) x (x % m) := by
  induction x using Nat.strongRecOn with
  | ind x ih =>
    rcases Nat.lt_or_ge x m with below | above
    · rw [Nat.div_eq_of_lt below, Nat.mod_eq_of_lt below]
      exact .done x below
    · rw [Nat.div_eq_sub_div pos above, Nat.mod_eq_sub_mod above]
      exact .again _ _ _ above (ih (x - m) (by omega))

/-- R130: from the value before it, step 9 ends with the value of the reduction. -/
theorem subLoop_of_barReduce {c : Config} {x m mu v : Nat} (pos : 0 < m)
    (value : barReduce c x m mu = .ok v) :
    let r := barRemainder c x m (barQuotient c x mu (used c m)) (used c m)
    SubLoop m (r / m) r v := by
  rw [barReduce, if_neg pos.ne'] at value
  rw [← Except.ok.inj value]
  exact subLoop_div_mod pos _

/-! ### `BAR_REDUCE` (R130 to R132) -/

/-- R132: a value of the reduction that is below the modulus is written. -/
theorem exec_barReduce {s : State} {ra rb rc : Reg} {v : Nat} (legal : s.cfg.Legal)
    (bound : s.reg rb < s.cfg.beta ^ s.cfg.maxd) (below : v < s.reg rb)
    (value : barReduce s.cfg (s.reg ra) (s.reg rb) (s.reg rc) = .ok v) (rd : Reg) :
    exec (.barReduce rd ra rb rc) s = .next (okReg s rd v .unused) :=
  exec_of_register_of_fits (congrArg (intoReg rd) value) (fits_of_lt legal (below.trans bound))

/-- Settles O45: a value below the modulus fits, and R130's steps 1 to 8 are its closed expression. -/
theorem barrettReduceCompletesBelowTheModulus :
    Obligations.BarrettReduceCompletesBelowTheModulus := by
  refine fun s rd ra rb rc legal bound =>
    ⟨decodeWord_wordOf rfl rfl, fun zero => ?_, fun nonzero => ?_⟩
  · exact exec_of_error (congrArg (intoReg rd) (if_pos zero))
  · obtain ⟨v, value, below⟩ := barReduce_ok s.cfg (s.reg ra) (s.reg rb) (s.reg rc) nonzero
    have ends := subLoop_of_barReduce (Nat.pos_of_ne_zero nonzero) value
    rw [barRemainder_eq, barQuotient_eq] at ends
    exact ⟨v, _, exec_barReduce legal bound below value rd, below, ends⟩

/-- Settles O46: in the precondition the value before step 9 is below `3 m`. -/
theorem barrettReduceIsTheRemainder : Obligations.BarrettReduceIsTheRemainder := by
  intro s rd ra rb rc legal bound pos square constant
  have value := barReduce_exact legal (s.reg ra) (s.reg rb) pos.ne' square
  obtain ⟨difference, small⟩ := barRemainder_exact legal (s.reg ra) (s.reg rb) pos.ne' square
  rw [← difference] at small
  rw [← constant] at value small
  exact ⟨exec_barReduce legal bound (Nat.mod_lt _ pos) value rd, _,
    Nat.lt_succ_iff.mp ((Nat.div_lt_iff_lt_mul pos).mpr small), subLoop_of_barReduce pos value⟩

end Sys2Proof.Machine
end

section
/-! SUPPORT. The diminished-radix commands (43_diminished_radix.md R135 to R149): what each of them writes,
and the loop of R143 as the relation that the claims write out. -/

namespace Sys2Proof.Machine

open Sys2Proof.Claims

/-! ### `DR_IS2K` and `DR_IS2K_L` (R135 to R138) -/

/-- R36, R97: a scalar result is stored in `SRES`, and the command completes with OK. -/
theorem exec_of_intoSres {i : Instr} {s : State} {v : Int} (result : commandRule i s = intoSres v) :
    exec i s = .next (okScalar s (scalarWord v)) := by
  rw [exec_eq, result]
  rfl

/-- R136, R138: a command that gives a classification completes with 1 where it is true, else with 0. -/
theorem exec_of_classification {i : Instr} {s : State} {b : Bool} {P : Prop}
    (result : commandRule i s = intoSres (if b then 1 else 0)) (classifies : b = true ↔ P) :
    (P → exec i s = .next (okScalar s 1)) ∧ (¬ P → exec i s = .next (okScalar s 0)) := by
  refine ⟨fun holds => ?_, fun fails => ?_⟩
  · rw [if_pos (classifies.mpr holds)] at result
    exact exec_of_intoSres result
  · rw [if_neg (mt classifies.mp fails)] at result
    exact exec_of_intoSres result

/-- R137: the count of the `MASK` digits is the size of the set of their places. -/
theorem isTwoKL_iff (c : Config) (a : Nat) : isTwoKL c a = true ↔
    used c a ≤ 2 * ((Finset.range (used c a)).filter fun j => digit c a j = c.beta - 1).card := by
  rw [← Nat.count_eq_card_filter_range]
  exact decide_eq_true_iff

/-- Settles O47, by the classifier of R135. -/
theorem isTwoKClassifies : Obligations.IsTwoKClassifies := fun s ra =>
  ⟨decodeWord_wordOf rfl rfl, exec_of_classification rfl (isTwoK_iff s.cfg (s.reg ra))⟩

/-- Settles O48, by the classifier of R137. -/
theorem isTwoKLClassifies : Obligations.IsTwoKLClassifies := by
  intro s ra
  obtain ⟨yes, no⟩ := exec_of_classification (i := .drIs2kL ra) rfl (isTwoKL_iff s.cfg (s.reg ra))
  exact ⟨decodeWord_wordOf rfl rfl, yes, fun fewer => no fewer.not_ge⟩

/-! ### `DR_SETUP` and `DR_SETUP_L` (R139 to R142) -/

/-- Settles O49: the result is one digit, which fits in every register. -/
theorem diminishedSetupGivesTheDigit : Obligations.DiminishedSetupGivesTheDigit := by
  refine fun s rd ra legal => ⟨decodeWord_wordOf rfl rfl, ?_⟩
  rw [← digit_zero_index]
  exact exec_of_register_of_fits rfl (fits_of_le_beta legal (digit_lt _ _ _).le)

/-- Settles O50: the difference is at most the operand or 1, so it fits. -/
theorem diminishedLongSetupGivesTheDifference :
    Obligations.DiminishedLongSetupGivesTheDifference := by
  intro s rd ra legal bound
  obtain ⟨difference, small⟩ := drSetupL_spec (s.reg ra)
  have one_lt : 1 < s.cfg.beta ^ s.cfg.maxd :=
    Nat.one_lt_pow (by have := Legal_maxd_ge_two legal; omega) (one_lt_beta legal)
  exact ⟨decodeWord_wordOf rfl rfl, _, difference, small,
    exec_of_register_of_fits rfl (fits_of_lt legal (small.trans_lt (max_lt bound one_lt)))⟩

/-! ### The loop of R143 -/

/-- R143: one pass of the loop, in the words of the claims' relation. -/
theorem red2kPass_eq_claim (p d : Nat) (single : Bool) (a : Nat) : red2kPass p d single a =
    a % 2 ^ p + if single = true ∧ d = 1 then a / 2 ^ p else a / 2 ^ p * d := by
  simp only [red2kPass, Bool.and_eq_true, beq_iff_eq]

section
variable {n d : Nat} (single : Bool) (nonzero : n ≠ 0) (accepted : d < 2 ^ countBits n)
include nonzero accepted

/-- R144: with more passes allowed than `a` needs, the bounded loop is the loop of R143. -/
theorem redLoop_red2kLoop (fuel a : Nat) (enough : a < fuel) :
    RedLoop n d single a (red2kLoop n d single fuel a) := by
  induction fuel generalizing a with
  | zero => omega
  | succ fuel ih =>
    have shrinks := red2kPass_le (countBits n) d single a accepted
    rw [red2kLoop]
    split
    · next below =>
      rw [red2kPass_eq_claim] at below ⊢
      exact .done a _ rfl below
    · next above =>
      have rest := ih (red2kPass (countBits n) d single a - n) (by omega)
      rw [red2kPass_eq_claim] at above rest ⊢
      exact .again a _ _ rfl (Nat.le_of_not_lt above) rest

/-- R143, R144: the reduction is the value at which the loop ends. -/
theorem redLoop_red2k (a : Nat) : RedLoop n d single a (red2k a n d single) :=
  redLoop_red2kLoop single nonzero accepted (a + 1) a a.lt_succ_self

/-- R145, R149: when `n` divides `2^p - d` the reduction is the remainder. -/
theorem red2k_eq_mod (divides : ((2 : Int) ^ countBits n - d) % n = 0) (a : Nat) :
    red2k a n d single = a % n := by
  have congruent : d ≡ 2 ^ countBits n [MOD n] :=
    Nat.modEq_iff_dvd.mpr (by exact_mod_cast Int.dvd_of_emod_eq_zero divides)
  rw [← Nat.mod_eq_of_lt (red2k_lt a n d single nonzero accepted)]
  exact red2kLoop_mod n d single congruent.symm _ _

end

/-- R148: a value below `n` has no high part, so the first pass returns it. -/
theorem red2k_of_lt {a n : Nat} (below : a < n) (d : Nat) (single : Bool) :
    red2k a n d single = a := by
  have short : a < 2 ^ countBits n := below.trans (lt_two_pow_countBits n)
  have pass : red2kPass (countBits n) d single a = a := by
    rw [red2kPass_eq, Nat.mod_eq_of_lt short, Nat.div_eq_of_lt short, Nat.zero_mul, Nat.add_zero]
  rw [red2k, red2kLoop, pass, if_pos below]

/-! ### `DR_REDUCE` and `DR_REDUCE_L` (R144 to R149) -/

/-- R146: the rule of `DR_REDUCE` is the checked reduction with digit 0 of the `d` register. -/
theorem commandRule_drReduce (s : State) (rd ra rb rc : Reg) : commandRule (.drReduce rd ra rb rc) s =
    intoReg rd (checkedRed2k (s.reg ra) (s.reg rb) (s.reg rc % s.cfg.beta) true) := by
  rw [← digit_zero_index]
  rfl

section
variable {i : Instr} {s : State} {rd : Reg} {a n d : Nat} {single : Bool}
  (rule : commandRule i s = intoReg rd (checkedRed2k a n d single))
include rule

/-- R144: a reducer refuses `n = 0` and a `d` with more bits than `n`. -/
theorem exec_reducer_refused (refused : n = 0 ∨ 2 ^ countBits n ≤ d) :
    exec i s = .next (failed s .invalidArgument) :=
  exec_of_error (by rw [rule, checkedRed2k, if_pos refused, intoReg_error])

variable (legal : s.cfg.Legal) (bound : n < s.cfg.beta ^ s.cfg.maxd) (nonzero : n ≠ 0)
  (accepted : d < 2 ^ countBits n)
include legal bound nonzero accepted

/-- R144: a reducer whose check passes writes the reduction, which is below `n` and so fits. -/
theorem exec_reducer_accepted : exec i s = .next (okReg s rd (red2k a n d single) .unused) := by
  have passes : ¬ (n = 0 ∨ 2 ^ countBits n ≤ d) := by omega
  rw [checkedRed2k, if_neg passes, intoReg_ok] at rule
  exact exec_of_register_of_fits rule
    (fits_of_lt legal ((red2k_lt a n d single nonzero accepted).trans bound))

/-- R143: a reducer whose check passes writes the value below `n` at which the loop ends. -/
theorem exec_reducer_runs_loop : ∃ v,
    exec i s = .next (okReg s rd v .unused) ∧ v < n ∧ RedLoop n d single a v :=
  ⟨_, exec_reducer_accepted rule legal bound nonzero accepted,
    red2k_lt a n d single nonzero accepted, redLoop_red2k single nonzero accepted a⟩

/-- R145, R148, R149: the two cases in which the reduction has a closed form. -/
theorem exec_reducer_modular :
    (a < n → exec i s = .next (okReg s rd a .unused)) ∧
    (((2 : Int) ^ countBits n - (d : Int)) % (n : Int) = 0 →
      exec i s = .next (okReg s rd (a % n) .unused)) := by
  have written := exec_reducer_accepted rule legal bound nonzero accepted
  refine ⟨fun below => ?_, fun divides => ?_⟩
  · rwa [red2k_of_lt below] at written
  · rwa [red2k_eq_mod single nonzero accepted divides] at written

end

/-- Settles O51: the checked reduction with digit 0 of the `d` register. -/
theorem diminishedReduceRunsTheLoop : Obligations.DiminishedReduceRunsTheLoop :=
  fun s rd ra rb rc legal bound => ⟨decodeWord_wordOf rfl rfl,
    exec_reducer_refused (commandRule_drReduce s rd ra rb rc),
    exec_reducer_runs_loop (commandRule_drReduce s rd ra rb rc) legal bound⟩

/-- Settles O52: the checked reduction with the whole `d` register. -/
theorem diminishedLongReduceRunsTheLoop : Obligations.DiminishedLongReduceRunsTheLoop :=
  fun _ _ _ _ _ legal bound => ⟨decodeWord_wordOf rfl rfl, exec_reducer_refused rfl,
    exec_reducer_runs_loop rfl legal bound⟩

/-- Settles O53, for both reducers by the closed forms of the one reduction. -/
theorem diminishedReductionIsModular : Obligations.DiminishedReductionIsModular :=
  fun s rd ra rb rc legal bound nonzero =>
    ⟨exec_reducer_modular (commandRule_drReduce s rd ra rb rc) legal bound nonzero,
      exec_reducer_modular rfl legal bound nonzero⟩

end Sys2Proof.Machine
end

section
/-! SUPPORT. The exponentiation commands (44_exponentiation.md R152 to R164): the window size, the path of
the fast variant, and what each command writes. -/

namespace Sys2Proof.Machine

open Sys2Proof.Claims

/-! ### The window size (R152) -/

/-- R152: a size between the two ends of a closed row has that row's window. -/
theorem winSizeUncapped_of_row {row : Nat × Nat × Nat} {b : Nat} (mem : row ∈ windowRows)
    (first : row.1 ≤ b) (last : b ≤ row.2.1) : winSizeUncapped b = row.2.2 := by
  simp only [windowRows, List.mem_cons, List.not_mem_nil, or_false] at mem
  unfold winSizeUncapped
  rcases mem with rfl | rfl | rfl | rfl | rfl | rfl
  all_goals
    dsimp only at first last ⊢
    split_ifs <;> omega

/-- R152: the open row has the greatest window. -/
theorem winSizeUncapped_of_open_row {b : Nat} (first : 3530 ≤ b) : winSizeUncapped b = 8 := by
  unfold winSizeUncapped
  split_ifs <;> omega

/-- Settles O59: the cap applies to the window of the size's row. -/
theorem windowSizeFollowsTheTable : Obligations.WindowSizeFollowsTheTable := by
  refine fun c b => ⟨fun row mem first last => ?_, fun first => ?_, winSize_bounds c b⟩
  · rw [winSize, winSizeUncapped_of_row mem first last]
  · rw [winSize, winSizeUncapped_of_open_row first]

/-! ### The path of the fast variant (R159) -/

/-- A value below `p²` has at most twice as many digits as `p`. -/
theorem used_le_of_lt_square {c : Config} (legal : c.Legal) {x p : Nat} (square : x < p * p) :
    used c x ≤ 2 * used c p := by
  have digits := Legal_digitBits_pos legal
  rw [used_le_iff digits, Nat.two_mul, Nat.pow_add]
  have below := (lt_beta_pow_used digits p).le
  exact square.trans_le (Nat.mul_le_mul below below)

/-- Settles O60: below `P²` the condition on the modulus's digits implies the one on the value's. -/
theorem fastPathConditionIsTheReductionsCondition :
    Obligations.FastPathConditionIsTheReductionsCondition := by
  intro c x p legal square
  have digits := used_le_of_lt_square legal square
  refine decide_eq_decide.mpr ⟨fun ⟨array, comba⟩ => ⟨array, by omega, comba⟩, ?_⟩
  exact fun ⟨array, _, comba⟩ => ⟨array, comba⟩

/-! ### `EXPMOD` (R156, R160) -/

/-- R163, R164: the result of an exponentiation is at most its modulus. -/
theorem powResult_le (g x : Nat) {p : Nat} (nonzero : p ≠ 0) : powResult g x p ≤ p := by
  rw [powResult]
  split
  · omega
  · exact (Nat.mod_lt _ (by omega)).le

/-- R131: with its own constant, Barrett's reduction is the remainder on what the controller gives it. -/
theorem okValue_barReduce {c : Config} (legal : c.Legal) {p v : Nat} (nonzero : p ≠ 0)
    (range : v < p * p ∨ p = 1) :
    okValue (barReduce c v p (c.beta ^ (2 * used c p) / p)) = v % p := by
  rcases range with square | rfl
  · rw [barReduce_exact legal v p nonzero square]
    rfl
  · obtain ⟨r, value, below⟩ := barReduce_ok c v 1 (c.beta ^ (2 * used c 1) / 1) nonzero
    rw [value, Nat.mod_one]
    exact Nat.lt_one_iff.mp below

/-- R160: either setup refuses the modulus 0. -/
theorem expmodValue_zero (c : Config) (g x : Nat) (mode : RedMode) :
    expmodValue c g x 0 mode = .error .divisionByZero := by
  unfold expmodValue
  split <;> rfl

/-- R163, R164: both reductions are exact, so both bindings give the power. -/
theorem expmodValue_of_ne_zero {c : Config} (legal : c.Legal) (g x : Nat) {p : Nat} (nonzero : p ≠ 0)
    (mode : RedMode) : expmodValue c g x p mode = .ok (powResult g x p) := by
  have digits := Legal_digitBits_pos legal
  have window := (winSize_bounds c (countBits x)).1
  unfold expmodValue
  split
  · rw [barSetup, if_neg nonzero]
    exact congrArg Except.ok (expCore_exact digits _ g x p _ nonzero window
      fun _ range => okValue_barReduce legal nonzero range)
  · exact congrArg Except.ok (expCore_exact digits _ g x p _ nonzero window
      fun v _ => red2k_exact v p false nonzero)

/-- Settles O54: the power is at most the modulus, so it fits. -/
theorem expmodIsModularExponentiation : Obligations.ExpmodIsModularExponentiation := by
  refine fun s rd ra rb rc mode legal bound => ⟨?_, fun zero => ?_, fun nonzero => ?_⟩
  · rw [wordOf_or_mode]
    exact decodeOfEncode (.expmod rd ra rb rc mode) rfl
  · have raised := expmodValue_zero s.cfg (s.reg ra) (s.reg rb) mode
    rw [← zero] at raised
    exact exec_of_error (congrArg (intoReg rd) raised)
  · have value := expmodValue_of_ne_zero legal (s.reg ra) (s.reg rb) nonzero mode
    exact exec_of_register_of_fits (congrArg (intoReg rd) value)
      (fits_of_lt legal ((powResult_le _ _ nonzero).trans_lt bound))

/-! ### `EXPMOD_FAST` with `MODE = 0` (R158, R161, R162) -/

section
variable {s : State} {ra rb rc : Reg} {mode : RedMode}

/-- R161: a code that the binding raises is the command's. -/
theorem exec_expmodFast_of_error {code : Code}
    (raised : expmodFastValue s.cfg (s.reg ra) (s.reg rb) (s.reg rc) mode = .error code) (rd : Reg) :
    exec (.expmodFast rd ra rb rc mode) s = .next (failed s code) :=
  exec_of_error (congrArg (Except.map _) raised)

/-- R161: a value of the binding that is at most the modulus fits and is written. -/
theorem exec_expmodFast_of_le {v : Nat} {path : MontPath} (legal : s.cfg.Legal)
    (bound : s.reg rc < s.cfg.beta ^ s.cfg.maxd)
    (value : expmodFastValue s.cfg (s.reg ra) (s.reg rb) (s.reg rc) mode = .ok (v, path))
    (le : v ≤ s.reg rc) (rd : Reg) :
    exec (.expmodFast rd ra rb rc mode) s = .next (okReg s rd v path) :=
  exec_of_register_of_fits (congrArg (Except.map _) value) (fits_of_lt legal (le.trans_lt bound))

end

/-- `β` is even, so a value and its low digit have the same parity. -/
theorem digit_zero_mod_two {c : Config} (legal : c.Legal) (n : Nat) : digit c n 0 % 2 = n % 2 := by
  rw [digit_zero_index]
  exact Nat.mod_mod_of_dvd n (dvd_pow_self 2 (Legal_digitBits_pos legal).ne')

section
variable {c : Config} (legal : c.Legal) (g x : Nat) {p : Nat}
include legal

/-- R161: Montgomery's setup refuses an even modulus. -/
theorem expmodMontgomery_even (even : p % 2 = 0) :
    expmodMontgomery c g x p = .error .invalidArgument := by
  rw [expmodMontgomery, montSetup_even c p ((digit_zero_mod_two legal p).trans even)]

/-- R159, R163: in Montgomery form, the power and the path of the selection condition. -/
theorem expmodMontgomery_odd (odd : p % 2 = 1) : expmodMontgomery c g x p =
    .ok (g ^ x % p, if fastCombaSelected c p then .comba else .baseline) := by
  obtain ⟨rho, setup, -, -, inverse⟩ := montSetup_odd legal p ((digit_zero_mod_two legal p).trans odd)
  have window := (winSize_bounds c (countBits x)).1
  rw [expmodMontgomery, setup]
  exact congrArg (fun v => Except.ok (v, _)) (expMont_exact legal g x p rho _ odd window inverse)

end

/-- Settles O55, by the modulus's parity. -/
theorem fastExpmodMontgomeryIsModularExponentiation :
    Obligations.FastExpmodMontgomeryIsModularExponentiation := by
  refine fun s rd ra rb rc legal bound => ⟨fun even => ?_, fun odd => ?_⟩
  · exact exec_expmodFast_of_error (mode := 0) (expmodMontgomery_even legal _ _ even) rd
  · have value := expmodMontgomery_odd legal (s.reg ra) (s.reg rb) odd
    simp only [fastCombaSelected, decide_eq_true_eq] at value
    exact exec_expmodFast_of_le (mode := 0) legal bound value (Nat.mod_lt _ (by omega)).le rd

/-! ### `EXPMOD_FAST` with `MODE = 2` (R158, R161) -/

section
variable {c : Config} (legal : c.Legal) (g x : Nat) {p : Nat}

/-- R158: for a positive modulus the binding runs the skeleton with the single-digit constant. -/
theorem expmodDiminished_of_ne_zero (nonzero : p ≠ 0) : expmodDiminished c g x p =
    .ok (expCore c (g % p) x 1 (fun v => red2k v p (drSetup c p) true) (winSize c (countBits x)),
      .unused) :=
  if_neg nonzero

include legal

/-- R163, R164: with an exact constant the reduction is the remainder, and the result the power. -/
theorem expmodDiminished_exact (nonzero : p ≠ 0) (oneDigit : 2 ^ countBits p - p < c.beta) :
    expmodDiminished c g x p = .ok (powResult g x p, .unused) := by
  rw [expmodDiminished_of_ne_zero g x nonzero, drSetup_of_lt c p oneDigit]
  exact congrArg (fun v => Except.ok (v, _)) (expCore_exact (Legal_digitBits_pos legal) _ g x p _
    nonzero (winSize_bounds c _).1 fun v _ => red2k_exact v p true nonzero)

/-- A modulus whose constant has more than one digit is at least 2. -/
theorem two_le_of_beta_le_difference (inexact : c.beta ≤ 2 ^ countBits p - p) : 2 ≤ p := by
  have small : 2 ^ countBits p - p ≤ max p 1 := (drSetupL_spec p).2
  have := one_lt_beta legal
  omega

/-- R163: with an inexact constant every reduction still ends below the modulus, and so does the
result. -/
theorem expmodDiminished_inexact (nonzero : p ≠ 0) (inexact : c.beta ≤ 2 ^ countBits p - p) :
    ∃ v, v < p ∧ expmodDiminished c g x p = .ok (v, .unused) :=
  ⟨_, expCore_lt (Legal_digitBits_pos legal) _ g x p _
      (two_le_of_beta_le_difference legal inexact) (winSize_bounds c _).1
      fun v => red2k_lt v p _ true nonzero (drSetup_lt c p nonzero),
    expmodDiminished_of_ne_zero g x nonzero⟩

end

/-- Settles O56, by the modulus and by whether its constant is exact. -/
theorem fastExpmodDiminishedIsModularExponentiation :
    Obligations.FastExpmodDiminishedIsModularExponentiation := by
  refine fun s rd ra rb rc legal bound =>
    ⟨fun zero => ?_, fun nonzero oneDigit => ?_, fun nonzero inexact => ?_⟩
  · exact exec_expmodFast_of_error (mode := 2) (if_pos zero) rd
  · exact exec_expmodFast_of_le (mode := 2) legal bound
      (expmodDiminished_exact legal _ _ nonzero oneDigit) (powResult_le _ _ nonzero) rd
  · obtain ⟨v, below, value⟩ :=
      expmodDiminished_inexact legal (s.reg ra) (s.reg rb) nonzero inexact
    exact ⟨v, below, exec_expmodFast_of_le (mode := 2) legal bound value below.le rd⟩

end Sys2Proof.Machine
end

section
/-! SUPPORT. The Rabin-Miller trial counts (45_rabin_miller.md R170, R171): the table as the list of its
closed rows, and what `RM_TRIALS` writes. -/

namespace Sys2Proof.Machine

open Sys2Proof.Claims

/-- R170: within each closed row of the table the count is the row's. -/
theorem rmTrials_of_row (t : Int) :
    ∀ row ∈ trialRows, row.1 ≤ t → t ≤ row.2.1 → rmTrials t = row.2.2 :=
  List.forall_iff_forall_mem.mp
    ⟨rmTrials_81 t, rmTrials_96 t, rmTrials_128 t, rmTrials_160 t, rmTrials_256 t, rmTrials_384 t,
      rmTrials_512 t, rmTrials_768 t, rmTrials_896 t, rmTrials_1024 t, rmTrials_1536 t,
      rmTrials_2048 t, rmTrials_3072 t, rmTrials_4096 t, rmTrials_5120 t, rmTrials_6144 t,
      rmTrials_8192 t⟩

/-- R81, R85: the claim's word, opcode and immediate only, is the encoding of `RM_TRIALS`. -/
theorem encode_rmTrials (imm : BitVec 32) :
    encode (.rmTrials imm) = BitVec.ofNat 64 (0x0E ||| imm.toNat <<< 32) := by
  rw [Nat.or_comm]
  rfl

/-- R171: the trial count of the signed immediate is sign-extended into `SRES`. -/
theorem exec_rmTrials_of_count {imm : BitVec 32} {count : Int} (counted : rmTrials imm.toInt = count)
    (s : State) : exec (.rmTrials imm) s = .next (okScalar s (scalarWord count)) :=
  exec_of_intoSres (congrArg intoSres counted)

/-- Settles O58, by the rows of the table and its two open ends. -/
theorem trialCountsFollowTheTable : Obligations.TrialCountsFollowTheTable := by
  refine fun s imm => ⟨?_, fun small => ?_, fun row listed first last => ?_, fun large => ?_⟩
  · rw [← encode_rmTrials]
    exact decodeOfEncode (.rmTrials imm) rfl
  · exact exec_rmTrials_of_count (rmTrials_first _ small) s
  · exact exec_rmTrials_of_count (rmTrials_of_row _ row listed first last) s
  · exact exec_rmTrials_of_count (rmTrials_last _ large) s

end Sys2Proof.Machine
end

section
/-! SUPPORT. The errors of commands (60_exceptions.md R200 to R213): an error completion writes no result,
and every legal command completes with a code of its row in R207's table. -/

namespace Sys2Proof.Machine

open Sys2Proof.Claims

/-! ### Errors are precise (R98, R213) -/

/-- Settles O26: the engine's step is the end of some command, and an error completion writes nothing. -/
theorem failedCommandWritesNoResult : Obligations.FailedCommandWritesNoResult := by
  intro s t w legal hm ht error
  obtain ⟨out, rfl⟩ := step_engine_finish legal hm ht
  simpa using finish_error_writes_nothing s.afterChoice out error

/-! ### The codes of the claims' end states -/

section
variable (s : State)

@[simp] theorem completed_err (code : Code) (path : MontPath) :
    (completed s code path).err = code := rfl

@[simp] theorem failed_err (code : Code) : (failed s code).err = code := rfl

@[simp] theorem okReg_err (rd : Reg) (v : Nat) (path : MontPath) : (okReg s rd v path).err = .ok := rfl

@[simp] theorem okScalar_err (v : Word) : (okScalar s v).err = .ok := rfl

end

/-! ### Each command's row (R207) -/

/-- The command completes in `s` with a code of its row in R207's table. -/
def CompletesInRow (i : Instr) (s : State) : Prop :=
  ∃ t, exec i s = .next t ∧ t.err ∈ possibleCodes i

/-- A known end state with a code of the row. -/
theorem CompletesInRow.of_exec {i : Instr} {s t : State} (ends : exec i s = .next t)
    (listed : t.err ∈ possibleCodes i := by simp [possibleCodes]) : CompletesInRow i s :=
  ⟨t, ends, listed⟩

section
variable {s : State} (inv : s.Inv) (rd ra rb rc : Reg)

/-- R120: the one reduction whose result may pass `MAXD`. -/
theorem completesInRow_montReduce : CompletesInRow (.montReduce rd ra rb rc) s := by
  obtain ⟨-, even, odd⟩ := montReduceCompletes s rd ra rb rc
  rcases Nat.mod_two_eq_zero_or_one (s.reg rb) with h | h
  · exact .of_exec (even h)
  · obtain ⟨fit, unfit⟩ := odd h
    rcases le_or_gt (used s.cfg (montReduceValue s.cfg (s.reg ra) (s.reg rb) (s.regDigit0 rc)))
      s.cfg.maxd with le | lt
    · exact .of_exec (fit le)
    · exact .of_exec (unfit lt)

include inv

theorem completesInRow_montSetup : CompletesInRow (.montSetup rd ra) s := by
  obtain ⟨-, odd, even⟩ := montSetupGivesTheNegatedInverse s rd ra inv.legal
  rcases Nat.mod_two_eq_zero_or_one (digit s.cfg (s.reg ra) 0) with h | h
  · exact .of_exec (even h)
  · obtain ⟨rho, ok, -⟩ := odd h
    exact .of_exec ok

/-- R113, R115: each of the four kinds of operand has a normalization that fits. -/
theorem completesInRow_montNorm : CompletesInRow (.montNorm rd ra) s := by
  obtain ⟨-, general, power, one, zero⟩ :=
    montNormGivesTheRadixResidue s rd ra inv.legal (inv.regs ra)
  by_cases isPower : ∃ j, s.cfg.digitBits ≤ j ∧ s.reg ra = 2 ^ j
  · obtain ⟨j, multi, value⟩ := isPower
    exact .of_exec (power j multi value)
  · obtain h | h | h : s.reg ra = 0 ∨ s.reg ra = 1 ∨ 2 ≤ s.reg ra := by omega
    · exact .of_exec (zero h)
    · exact .of_exec (one h)
    · exact .of_exec (general h fun j multi value => isPower ⟨j, multi, value⟩)

/-- R126, R127: the one setup whose result may pass `MAXD`. -/
theorem completesInRow_barSetup : CompletesInRow (.barSetup rd ra) s := by
  obtain ⟨-, zero, nonzero⟩ := barrettSetupGivesTheQuotient s rd ra inv.legal
  by_cases h : s.reg ra = 0
  · exact .of_exec (zero h)
  · obtain ⟨fit, unfit⟩ := nonzero h
    by_cases tooLong : s.cfg.maxd < used s.cfg (s.reg ra) + 1 ∨
        (s.cfg.maxd < used s.cfg (s.reg ra) + 2 ∧
          s.reg ra = s.cfg.beta ^ (used s.cfg (s.reg ra) - 1))
    · exact .of_exec (unfit tooLong)
    · exact .of_exec (fit tooLong)

theorem completesInRow_barReduce : CompletesInRow (.barReduce rd ra rb rc) s := by
  obtain ⟨-, zero, nonzero⟩ :=
    barrettReduceCompletesBelowTheModulus s rd ra rb rc inv.legal (inv.regs rb)
  by_cases h : s.reg rb = 0
  · exact .of_exec (zero h)
  · obtain ⟨v, passes, ok, -⟩ := nonzero h
    exact .of_exec ok

theorem completesInRow_drSetupL : CompletesInRow (.drSetupL rd ra) s := by
  obtain ⟨-, v, -, -, ok⟩ :=
    diminishedLongSetupGivesTheDifference s rd ra inv.legal (inv.regs ra)
  exact .of_exec ok

/-- R144, R146, R147: a reducer refuses its operands or ends below the modulus, which fits. -/
theorem completesInRow_reducer {i : Instr} {rd : Reg} {a n d : Nat} {single : Bool}
    (rule : commandRule i s = intoReg rd (checkedRed2k a n d single))
    (row : possibleCodes i = [.ok, .invalidArgument]) (bound : n < s.cfg.beta ^ s.cfg.maxd) :
    CompletesInRow i s := by
  by_cases h : n = 0 ∨ 2 ^ countBits n ≤ d
  · exact .of_exec (exec_reducer_refused rule h) (by simp [row])
  · obtain ⟨nonzero, short⟩ := not_or.mp h
    exact .of_exec (exec_reducer_accepted rule inv.legal bound nonzero (Nat.lt_of_not_le short))
      (by simp [row])

theorem completesInRow_expmod (mode : RedMode) : CompletesInRow (.expmod rd ra rb rc mode) s := by
  obtain ⟨-, zero, nonzero⟩ :=
    expmodIsModularExponentiation s rd ra rb rc mode inv.legal (inv.regs rc)
  by_cases h : s.reg rc = 0
  · exact .of_exec (zero h)
  · exact .of_exec (nonzero h)

theorem completesInRow_expmodFast_montgomery : CompletesInRow (.expmodFast rd ra rb rc 0) s := by
  obtain ⟨even, odd⟩ :=
    fastExpmodMontgomeryIsModularExponentiation s rd ra rb rc inv.legal (inv.regs rc)
  rcases Nat.mod_two_eq_zero_or_one (s.reg rc) with h | h
  · exact .of_exec (even h)
  · exact .of_exec (odd h)

theorem completesInRow_expmodFast_diminished : CompletesInRow (.expmodFast rd ra rb rc 2) s := by
  obtain ⟨zero, exactly, inexact⟩ :=
    fastExpmodDiminishedIsModularExponentiation s rd ra rb rc inv.legal (inv.regs rc)
  by_cases h : s.reg rc = 0
  · exact .of_exec (zero h)
  · rcases Nat.lt_or_ge (2 ^ countBits (s.reg rc) - s.reg rc) s.cfg.beta with lt | ge
    · exact .of_exec (exactly h lt)
    · obtain ⟨v, -, ok⟩ := inexact h ge
      exact .of_exec ok

/-- R85, R161, R204: the three modes of a legal `EXPMOD_FAST`. -/
theorem completesInRow_expmodFast {mode : RedMode} (legalMode : mode.val ≤ 2) :
    CompletesInRow (.expmodFast rd ra rb rc mode) s := by
  obtain rfl | rfl | rfl : mode = 0 ∨ mode = 1 ∨ mode = 2 := by
    simp only [Fin.ext_iff]
    omega
  · exact completesInRow_expmodFast_montgomery inv rd ra rb rc
  · obtain ⟨-, unimplemented, -⟩ := fastExpmodModeOneIsUnimplemented s rd ra rb rc
    exact .of_exec unimplemented
  · exact completesInRow_expmodFast_diminished inv rd ra rb rc

end

/-- Settles O28, command by command: the invariant bounds the operands, so that no result but those of
`MONT_REDUCE` and `BAR_SETUP` passes `MAXD`. -/
theorem completionCodesPerCommand : Obligations.CompletionCodesPerCommand := by
  intro i s t inv wf ht
  have inRow : CompletesInRow i s := by
    cases i with
    | nop => exact .of_exec (nopCompletes.2 s)
    | montSetup rd ra => exact completesInRow_montSetup inv rd ra
    | montNorm rd ra => exact completesInRow_montNorm inv rd ra
    | montReduce rd ra rb rc => exact completesInRow_montReduce rd ra rb rc
    | barSetup rd ra => exact completesInRow_barSetup inv rd ra
    | barReduce rd ra rb rc => exact completesInRow_barReduce inv rd ra rb rc
    | drIs2k _ | drIs2kL _ | rmTrials _ => exact .of_exec (exec_of_intoSres rfl)
    | drSetup rd ra => exact .of_exec (diminishedSetupGivesTheDigit s rd ra inv.legal).2
    | drSetupL rd ra => exact completesInRow_drSetupL inv rd ra
    | drReduce rd ra rb rc =>
      exact completesInRow_reducer inv (commandRule_drReduce s rd ra rb rc) rfl (inv.regs rb)
    | drReduceL rd ra rb rc => exact completesInRow_reducer inv rfl rfl (inv.regs rb)
    | expmod rd ra rb rc mode => exact completesInRow_expmod inv rd ra rb rc mode
    | expmodFast rd ra rb rc mode =>
      exact completesInRow_expmodFast inv rd ra rb rc (of_decide_eq_true wf)
  obtain ⟨u, ends, listed⟩ := inRow
  cases ht.symm.trans ends
  exact listed

end Sys2Proof.Machine
end

section
/-! SUPPORT. The reset events (70_reset_and_hazards.md R230, R231). -/

namespace Sys2Proof.Machine

open Sys2Proof.Claims

/-- R231: the model's `Reset()` is the claims' end state. -/
theorem doReset_eq_afterReset (s : State) : s.doReset = afterReset s := rfl

/-- R28, R54: the request that writes `CTRL` with `SRST` set resets the block and answers the write. -/
theorem hostMove_ctrl_srst (s : State) {w : Word} (bit : w.getLsbD 1 = true) :
    s.hostMove (.write (s.cfg.base + 0x018) (lanesOfWord w)) =
      afterReset { s with responses := .written :: s.responses } := by
  rw [hostMove_write_lanes s w (by decide) (by decide), memWrite_ctrl_srst s w bit,
    doReset_eq_afterReset]
  rfl

/-- Settles O14: the reset event is the outside world's oldest request, and the step performs it. -/
theorem bothResetEventsPerformReset : Obligations.BothResetEventsPerformReset := by
  intro s rest legal turn
  refine ⟨fun queue => ?resetInput, fun w bit queue => ?ctrlWrite⟩
  case resetInput => exact stepPerformsTheOldestRequest s _ rest legal queue turn
  case ctrlWrite =>
    rw [stepPerformsTheOldestRequest s _ rest legal queue turn]
    exact congrArg _ (hostMove_ctrl_srst { s with hostQ := rest, schedule := _ } bit)

end Sys2Proof.Machine
end
